-- ==== Sys2Proof/Word.lean ====
section
/-! DEFINITION. The two data widths of the CORE (spec/00_scope.md R5 and R13): `u8` and `u16`. -/

namespace Sys2Proof

/-- A `u8` (R13): a byte register, a bus datum, an opcode. -/
abbrev Byte := BitVec 8

/-- A `u16` (R13): an address, `pc`, `sp`, a register pair. Its `+` and `-` wrap modulo 65536 (R14). -/
abbrev Word := BitVec 16

end Sys2Proof
end

