-- ==== Sys2Proof/Config.lean ====
section
/-! DEFINITION. The numbers the hardware fixes: the parameter table of spec/00_scope.md R5.
The one parameter left to a user, `BOOT_IMAGE`, is an argument of `Machine.ifReset` (R6). The spec leaves no value free
(spec/93_implementation_defined.md), so no constant here is opaque. -/

namespace Sys2Proof.Config

/-- `RAM_SIZE`. -/
abbrev ramSize : Nat := 8192

/-- `RAM_BASE` (R5, the spec's decision D3). -/
abbrev ramBase : Nat := 0x0000

/-- `VRAM_SIZE`. -/
abbrev vramSize : Nat := 8192

/-- `VRAM_BASE`. -/
abbrev vramBase : Nat := 0x8000

/-- `IO_LO`, the first address of the hardware I/O range. -/
abbrev ioLo : Nat := 0xFF00

/-- `IO_HI`, the last address of the hardware I/O range. -/
abbrev ioHi : Nat := 0xFF7F

/-- `HIGH_BASE`, added to register C by the high-RAM store. -/
abbrev highBase : Word := 0xFF00

/-- `PREFIX`, the one prefix byte. -/
abbrev prefixByte : Byte := 0xCB

end Sys2Proof.Config
end

