-- ==== Sys2Proof/Syntax.lean ====
section
/-! DEFINITION. The instruction set as syntax: the register names of spec/10_state.md R26, the two access widths, and one
constructor of `Instr` for each of the 22 rows of spec/opcode_table.json (spec/30_encoding.md R93). -/

namespace Sys2Proof

/-- The twelve register names an instruction may place in an addressable location or use as an operand (R26). -/
inductive RegName where
  | A | B | C | D | E | H | L
  | BC | DE | HL | SP
  | PC
  deriving DecidableEq, Repr

/-- A requested access width: 8 or 16 (R203). -/
inductive Width where
  | w8
  | w16
  deriving DecidableEq, Repr

/-- The 22 instructions (R93). `d8` is an unsigned immediate, `d16` a 16-bit immediate, `e8` the offset byte of the
branch, read as two's complement (R98). -/
inductive Instr where
  /-- `LD B,d8` (R140). -/
  | ldB (d8 : Byte)
  /-- `LD C,d8` (R141). -/
  | ldC (d8 : Byte)
  /-- `LD D,d8` (R142). -/
  | ldD (d8 : Byte)
  /-- `LD E,d8` (R143). -/
  | ldE (d8 : Byte)
  /-- `LD H,d8` (R144). -/
  | ldH (d8 : Byte)
  /-- `LD L,d8` (R145). -/
  | ldL (d8 : Byte)
  /-- `LD A,d8` (R146). -/
  | ldA (d8 : Byte)
  /-- `LD BC,d16` (R147). -/
  | ldBC (d16 : Word)
  /-- `LD DE,d16` (R148). -/
  | ldDE (d16 : Word)
  /-- `LD HL,d16` (R149). -/
  | ldHL (d16 : Word)
  /-- `LD SP,d16` (R150). -/
  | ldSP (d16 : Word)
  /-- `JR NZ,e8` (R160). -/
  | jrNZ (e8 : Byte)
  /-- `LD (HL-),A` (R170). -/
  | ldHLDecA
  /-- `LD (C),A` (R171). -/
  | ldHighCA
  /-- `XOR A` (R180). -/
  | xorA
  /-- `BIT 7,B` (R181). -/
  | bit7B
  /-- `BIT 7,C` (R182). -/
  | bit7C
  /-- `BIT 7,D` (R183). -/
  | bit7D
  /-- `BIT 7,E` (R184). -/
  | bit7E
  /-- `BIT 7,H` (R185). -/
  | bit7H
  /-- `BIT 7,L` (R186). -/
  | bit7L
  /-- `BIT 7,A` (R187). -/
  | bit7A
  deriving DecidableEq, Repr

end Sys2Proof
end

