-- ==== Sys2Proof/Decode.lean ====
section
/-! DEFINITION. Decoding and encoding: the two opcode tables of spec/30_encoding.md R94 and R95, the decoder on bytes
(R99, R101, R102), the encoder (R91), the lengths (R92), and the host's view of a table word. -/

namespace Sys2Proof

/-- Concatenation `{high, low}` (R13), the source's `(high << 8) | low`. -/
def concat (high low : Byte) : Word := (high.setWidth 16 <<< 8) ||| low.setWidth 16

/-- The little-endian `u16` in two bytes of memory, the byte at the lower address first (R60, R98). -/
def leWord (low high : Byte) : Word := concat high low

/-- Bits 7..0 of a `u16`. -/
def lowByte (w : Word) : Byte := w.extractLsb' 0 8

/-- Bits 15..8 of a `u16`. -/
def highByte (w : Word) : Byte := w.extractLsb' 8 8

/-- What a first byte stands for, by the five formats of R91. -/
inductive Row where
  /-- `OP`: a whole instruction. -/
  | op (i : Instr)
  /-- `OP_D8`: one immediate byte follows. -/
  | opD8 (make : Byte → Instr)
  /-- `OP_E8`: one signed offset byte follows. -/
  | opE8 (make : Byte → Instr)
  /-- `OP_D16`: a little-endian 16-bit immediate follows. -/
  | opD16 (make : Word → Instr)
  /-- `CB_XOP`: an extended opcode follows. -/
  | cbXop

/-- The first-byte table (R94, byte values by the spec's decision D1), in one place as D1 asks. -/
def firstByteTable : List (Byte × Row) :=
  [ (0x01, .opD16 .ldBC),
    (0x06, .opD8 .ldB),
    (0x0E, .opD8 .ldC),
    (0x11, .opD16 .ldDE),
    (0x16, .opD8 .ldD),
    (0x1E, .opD8 .ldE),
    (0x20, .opE8 .jrNZ),
    (0x21, .opD16 .ldHL) ] ++
  [ (0x26, .opD8 .ldH),
    (0x2E, .opD8 .ldL),
    (0x31, .opD16 .ldSP),
    (0x32, .op .ldHLDecA),
    (0x3E, .opD8 .ldA),
    (0xAF, .op .xorA),
    (0xCB, .cbXop),
    (0xE2, .op .ldHighCA) ]

/-- The extended table (R95), selected by the byte after the prefix. -/
def extendedTable : List (Byte × Instr) :=
  [ (0x78, .bit7B),
    (0x79, .bit7C),
    (0x7A, .bit7D),
    (0x7B, .bit7E),
    (0x7C, .bit7H),
    (0x7D, .bit7L),
    (0x7F, .bit7A) ]

/-- The row of a first byte; none for an unassigned one (R99). -/
def firstByteRow (byte0 : Byte) : Option Row := firstByteTable.lookup byte0

/-- The instruction of an extended opcode; none for an unassigned one (R99). -/
def extendedInstr (byte1 : Byte) : Option Instr := extendedTable.lookup byte1

/-- What the decoder answers. The three rejections name what is wrong. -/
inductive Decoded where
  /-- An instruction, and the bytes after it. -/
  | instr (i : Instr) (rest : List Byte)
  /-- `byte0` is not in R94. -/
  | unknownOpcode (byte0 : Byte)
  /-- `byte0` is the prefix and `byte1` is not in R95. -/
  | unknownExtendedOpcode (byte1 : Byte)
  /-- The list ends before the instruction does. -/
  | truncated
  deriving DecidableEq, Repr

/-- What the bytes after a first byte `byte0` with its row say. -/
def decodeRow (byte0 : Byte) : Option Row → List Byte → Decoded
  | none, _ => .unknownOpcode byte0
  | some (.op i), rest => .instr i rest
  | some (.opD8 make), d8 :: rest => .instr (make d8) rest
  | some (.opD8 _), [] => .truncated
  | some (.opE8 make), e8 :: rest => .instr (make e8) rest
  | some (.opE8 _), [] => .truncated
  | some (.opD16 make), low :: high :: rest => .instr (make (leWord low high)) rest
  | some (.opD16 _), [_] => .truncated
  | some (.opD16 _), [] => .truncated
  | some .cbXop, byte1 :: rest =>
    match extendedInstr byte1 with
    | some i => .instr i rest
    | none => .unknownExtendedOpcode byte1
  | some .cbXop, [] => .truncated

/-- The decoder: total on any bytes, in memory order (R102). -/
def decode : List Byte → Decoded
  | [] => .truncated
  | byte0 :: rest => decodeRow byte0 (firstByteRow byte0) rest

/-- The encoder: the bytes of an instruction in memory order, from the formats of R91 and the values of R94 and R95. -/
def encode : Instr → List Byte
  | .ldB d8 => [0x06, d8]
  | .ldC d8 => [0x0E, d8]
  | .ldD d8 => [0x16, d8]
  | .ldE d8 => [0x1E, d8]
  | .ldH d8 => [0x26, d8]
  | .ldL d8 => [0x2E, d8]
  | .ldA d8 => [0x3E, d8]
  | .ldBC d16 => [0x01, lowByte d16, highByte d16]
  | .ldDE d16 => [0x11, lowByte d16, highByte d16]
  | .ldHL d16 => [0x21, lowByte d16, highByte d16]
  | .ldSP d16 => [0x31, lowByte d16, highByte d16]
  | .jrNZ e8 => [0x20, e8]
  | .ldHLDecA => [0x32]
  | .ldHighCA => [0xE2]
  | .xorA => [0xAF]
  | .bit7B => [0xCB, 0x78]
  | .bit7C => [0xCB, 0x79]
  | .bit7D => [0xCB, 0x7A]
  | .bit7E => [0xCB, 0x7B]
  | .bit7H => [0xCB, 0x7C]
  | .bit7L => [0xCB, 0x7D]
  | .bit7A => [0xCB, 0x7F]

/-- The length in bytes of an instruction, by its format (R91, R92). -/
def Instr.length : Instr → Nat
  | .ldHLDecA | .ldHighCA | .xorA => 1
  | .ldB _ | .ldC _ | .ldD _ | .ldE _ | .ldH _ | .ldL _ | .ldA _ => 2
  | .jrNZ _ => 2
  | .bit7B | .bit7C | .bit7D | .bit7E | .bit7H | .bit7L | .bit7A => 2
  | .ldBC _ | .ldDE _ | .ldHL _ | .ldSP _ => 3

/-- The first `n` bytes of a word whose first byte is its bits 7..0, its second its bits 15..8, and so on. -/
def bytesLowFirst : Nat → Nat → List Byte
  | 0, _ => []
  | n + 1, w => BitVec.ofNat 8 w :: bytesLowFirst n (w / 256)

/-- The three bytes, in memory order, of a table word of `nbits` bits (every bit above `nbits` is 0). The first byte is
bits 7..0. DEDUCED (log 3): spec/opcode_table.json numbers its seven prefixed rows from the match string `0xCBxx` read as one
number, so the prefix is in bits 15..8; a word of 16 bits that is no instruction the first way is read that way. -/
def tableWordBytes (nbits w : Nat) : List Byte :=
  let value := w % 2 ^ nbits
  let lowFirst := bytesLowFirst 3 value
  match decode lowFirst with
  | .instr _ _ => lowFirst
  | _ =>
    if nbits = 16 ∧ BitVec.ofNat 8 (value / 256) = Config.prefixByte then
      [BitVec.ofNat 8 (value / 256), BitVec.ofNat 8 value, 0]
    else lowFirst

/-- The instruction this decoder reads from a table word (the host's fixed name). -/
def decodeTableWord (nbits w : Nat) : Option Instr :=
  match decode (tableWordBytes nbits w) with
  | .instr i _ => some i
  | _ => none

end Sys2Proof
end

