-- ==== Sys2Proof/Machine/State.lean ====
section
/-! DEFINITION. The architectural state of the CORE as plain data (spec/10_state.md R20), its reset value (R38), and the
reasons a step can stop: the four fault kinds of spec/60_exceptions.md R200 and the refusals. -/

namespace Sys2Proof.Machine

/-- `access_kind` of R204: instruction and operand fetches report `read`. -/
inductive AccessKind where
  | read
  | write
  deriving DecidableEq, Repr

/-- The four fault kinds with their payloads (R200, a closed taxonomy). Each is the spec's own, so stopping with one is
safe: the CORE answers the same fault and goes no further until reset (R205). -/
inductive Fault where
  /-- R201. Raised by the fetch when the byte at `address` (the value of `pc`) is in no row of R94. Safe. -/
  | unknownOpcode (opcode : Byte) (address : Word)
  /-- R202. Raised by the fetch when the byte after the prefix, at `address`, is in no row of R95. Safe. -/
  | unknownExtendedOpcode (opcode : Byte) (address : Word)
  /-- R203. Raised by the register access primitives outside the sets of R26 and R27; no instruction reaches it. Safe. -/
  | invalidRegisterWidth (register : RegName) (requestedWidth : Width)
  /-- R204. Raised by the bus: a read outside RAM and VRAM, or a write outside RAM, VRAM and IO. Safe. -/
  | unimplementedMemoryRegion (address : Word) (accessKind : AccessKind)
  deriving DecidableEq, Repr

/-- What the model does not accept. -/
inductive Refusal where
  /-- An arm of `exec` without a meaning yet. No arm has it. Safe. -/
  | notModelled (mnemonic : String)
  /-- R6: a boot image of `length` bytes, more than `RAM_SIZE`; raised by `ifReset` only. Safe: no machine is made. -/
  | bootImageTooLong (length : Nat)
  deriving DecidableEq, Repr

/-- The seven byte registers (R21). -/
structure Regs where
  a : Byte
  b : Byte
  c : Byte
  d : Byte
  e : Byte
  h : Byte
  l : Byte
  deriving DecidableEq, Repr

/-- The flag register: four independent booleans, zero, subtract, half-carry, carry (R29). -/
structure Flags where
  z : Bool
  n : Bool
  h : Bool
  c : Bool
  deriving DecidableEq, Repr

/-- A byte array of the bus, held as its (index, byte) pairs in canonical form: indexes strictly rising, and no entry equal
to what an unlisted index reads as (`Memory.wf` in Machine/Ops.lean; log 5). -/
abbrev Memory := List Host.Cell

/-- The complete architectural state (R20). -/
structure State where
  regs : Regs
  /-- Stack pointer (R25). -/
  sp : Word
  /-- Program counter (R28): between steps the address of the next opcode byte. -/
  pc : Word
  flags : Flags
  /-- `ram[0..8191]`, by index (R34). -/
  ram : Memory
  /-- `vram[0..8191]`, by index (R34). -/
  vram : Memory
  /-- The fault latch and its record (R36): `none` is not `FAULTED`, `some f` is `FAULTED` with the record `f` (log 6). -/
  faultRecord : Option Fault
  deriving DecidableEq, Repr

/-- The state after `IF-RESET` with the empty boot image (R38 with N = 0; log 2). -/
def State.reset : State where
  regs := { a := 0, b := 0, c := 0, d := 0, e := 0, h := 0, l := 0 }
  sp := 0
  pc := 0
  flags := { z := false, n := false, h := false, c := false }
  ram := []
  vram := []
  faultRecord := none

end Sys2Proof.Machine
end

