-- ==== Sys2Proof/WellFormed.lean ====
section
/-! DEFINITION. The checks that stand outside the types. An immediate has no check: every `d8`, `d16` and `e8` is encodable
(spec/30_encoding.md R98). What is checked: each register an instruction accesses supports the width it is accessed at
(spec/10_state.md R26 and R27), and a boot image fits the general RAM (spec/00_scope.md R6). -/

namespace Sys2Proof

/-- The register sets of R26 and R27 (the same for reads and writes): width 8 for the seven byte registers, width 16 for
`BC DE HL SP`, no width for `PC`. -/
def RegName.allows : RegName → Width → Bool
  | .A, .w8 | .B, .w8 | .C, .w8 | .D, .w8 | .E, .w8 | .H, .w8 | .L, .w8 => true
  | .BC, .w16 | .DE, .w16 | .HL, .w16 | .SP, .w16 => true
  | _, _ => false

/-- The registers an instruction's rule reads or writes through `x[r]`, each with the width of the access (the operand
lists of R140 to R150, R160, R170, R171, R180 to R187). -/
def Instr.registers : Instr → List (RegName × Width)
  | .ldB _ => [(.B, .w8)]
  | .ldC _ => [(.C, .w8)]
  | .ldD _ => [(.D, .w8)]
  | .ldE _ => [(.E, .w8)]
  | .ldH _ => [(.H, .w8)]
  | .ldL _ => [(.L, .w8)]
  | .ldA _ => [(.A, .w8)]
  | .ldBC _ => [(.BC, .w16)]
  | .ldDE _ => [(.DE, .w16)]
  | .ldHL _ => [(.HL, .w16)]
  | .ldSP _ => [(.SP, .w16)]
  | .jrNZ _ => []
  | .ldHLDecA => [(.HL, .w16), (.A, .w8)]
  | .ldHighCA => [(.C, .w8), (.A, .w8)]
  | .xorA => [(.A, .w8)]
  | .bit7B => [(.B, .w8)]
  | .bit7C => [(.C, .w8)]
  | .bit7D => [(.D, .w8)]
  | .bit7E => [(.E, .w8)]
  | .bit7H => [(.H, .w8)]
  | .bit7L => [(.L, .w8)]
  | .bit7A => [(.A, .w8)]

/-- A list of register accesses in which every register supports its width. -/
def accessesWellFormed (accesses : List (RegName × Width)) : Bool :=
  accesses.all fun access => access.1.allows access.2

/-- A well-formed instruction accesses each register at a width the register supports. -/
def Instr.wellFormed (i : Instr) : Bool := accessesWellFormed i.registers

/-- A boot image of at most `RAM_SIZE` bytes (R6; a longer one is refused). -/
def bootImageWellFormed (image : List Byte) : Bool := decide (image.length ≤ Config.ramSize)

end Sys2Proof
end

