-- ==== Sys2Proof/Machine/Ops.lean ====
section
/-! DEFINITION. The named operations over the state: field updates, the byte arrays, the bus map and its three operations
(spec/20_memory.md R51 to R61), the register access primitives (spec/10_state.md R23, R26, R27), and the one effect a fault
has on the state (spec/60_exceptions.md R205, R206). -/

namespace Sys2Proof.Machine

/-! Field updates. -/

def State.setRegs (s : State) (regs : Regs) : State := { s with regs := regs }
def State.setSp (s : State) (v : Word) : State := { s with sp := v }
def State.setPc (s : State) (target : Word) : State := { s with pc := target }
def State.setFlags (s : State) (flags : Flags) : State := { s with flags := flags }
def State.setRam (s : State) (ram : Memory) : State := { s with ram := ram }
def State.setVram (s : State) (vram : Memory) : State := { s with vram := vram }

/-- The effect of raising a fault (R205, R206): the latch is set with the record, and nothing else changes. There is no trap
entry: no saved pc, no mode, no vector (R208). There is no return beside it: only `IF-RESET` clears the latch (R205, R209). -/
def State.latchFault (s : State) (f : Fault) : State := { s with faultRecord := some f }

/-- The state without its latch. No request of the CORE does this; `withFetchWord` uses it (log 4). -/
def State.clearFault (s : State) : State := { s with faultRecord := none }

/-- `faulted` (R36). -/
def State.faulted (s : State) : Bool := s.faultRecord.isSome

/-! The byte arrays. -/

/-- What an index that is not listed reads as: RAM beyond the boot image and all of VRAM are zero after reset (R38). -/
def Memory.unlisted : Byte := 0

/-- The byte at an index. -/
def Memory.read : Memory → Nat → Byte
  | [], _ => Memory.unlisted
  | (i, v) :: m, k => if k = i then v else Memory.read m k

/-- The array with one entry put in front of the others, unless it says what an unlisted index reads as. -/
def Memory.entry (k : Nat) (v : Byte) (m : Memory) : Memory :=
  if v = Memory.unlisted then m else (k, v) :: m

/-- The array with byte `k` set to `v`, in canonical form. -/
def Memory.write : Memory → Nat → Byte → Memory
  | [], k, v => Memory.entry k v []
  | (i, w) :: m, k, v =>
    if k < i then Memory.entry k v ((i, w) :: m)
    else if k = i then Memory.entry k v m
    else (i, w) :: Memory.write m k v

/-- The array that holds `bytes` from index `k` on and zero elsewhere (the copy of a boot image, R230). -/
def Memory.load : Nat → List Byte → Memory
  | _, [] => []
  | k, v :: bytes => Memory.entry k v (Memory.load (k + 1) bytes)

/-- The canonical form: indexes strictly rising, no entry equal to what an unlisted index reads as. -/
abbrev Memory.wf (m : Memory) : Prop :=
  m.Pairwise (fun x y => x.1 < y.1) ∧ ∀ x ∈ m, x.2 ≠ Memory.unlisted

/-- Every listed index is inside an array of `size` bytes (R34). -/
abbrev Memory.within (m : Memory) (size : Nat) : Prop := ∀ x ∈ m, x.1 < size

/-! The bus. -/

/-- The four regions of the map (R51). -/
inductive Region where
  | ram
  | vram
  | io
  | unimplemented
  deriving DecidableEq, Repr

/-- The region of an address (R50, R51). -/
def region (address : Word) : Region :=
  if Config.ramBase ≤ address.toNat ∧ address.toNat < Config.ramBase + Config.ramSize then .ram
  else if Config.vramBase ≤ address.toNat ∧ address.toNat < Config.vramBase + Config.vramSize then .vram
  else if Config.ioLo ≤ address.toNat ∧ address.toNat ≤ Config.ioHi then .io
  else .unimplemented

/-- Index into `ram` of a RAM address. -/
def ramIndex (address : Word) : Nat := address.toNat - Config.ramBase

/-- Index into `vram` of a VRAM address: `address - 0x8000` (R52, R55). -/
def vramIndex (address : Word) : Nat := address.toNat - Config.vramBase

/-- `read_u8` (R52, R53). -/
def State.readU8 (s : State) (address : Word) : Except Fault Byte :=
  match region address with
  | .ram => .ok (s.ram.read (ramIndex address))
  | .vram => .ok (s.vram.read (vramIndex address))
  | .io => .error (.unimplementedMemoryRegion address .read)
  | .unimplemented => .error (.unimplementedMemoryRegion address .read)

/-- `read_u16` (R60, R61): the high byte, at `address + 1` modulo 65536, is read first. -/
def State.readU16 (s : State) (address : Word) : Except Fault Word := do
  let hi ← s.readU8 (address + 1)
  let lo ← s.readU8 address
  return leWord lo hi

/-- `write_u8` (R54 to R57). -/
def State.writeU8 (s : State) (address : Word) (value : Byte) : Except Fault State :=
  match region address with
  | .ram => .ok (s.setRam (s.ram.write (ramIndex address) value))
  | .vram => .ok (s.setVram (s.vram.write (vramIndex address) value))
  | .io => .ok s
  | .unimplemented => .error (.unimplementedMemoryRegion address .write)

/-! The registers. -/

/-- The view `BC = {B, C}` (R23; which letter is high is the spec's decision D28). -/
def Regs.bc (r : Regs) : Word := concat r.b r.c

/-- The view `DE = {D, E}` (R23). -/
def Regs.de (r : Regs) : Word := concat r.d r.e

/-- The view `HL = {H, L}` (R23). -/
def Regs.hl (r : Regs) : Word := concat r.h r.l

/-! Writing a pair sets the high register to bits 15..8 and the low one to bits 7..0 (R23). -/

def Regs.setBC (r : Regs) (w : Word) : Regs := { r with b := highByte w, c := lowByte w }
def Regs.setDE (r : Regs) (w : Word) : Regs := { r with d := highByte w, e := lowByte w }
def Regs.setHL (r : Regs) (w : Word) : Regs := { r with h := highByte w, l := lowByte w }

/-- The width-8 read `x[r]` (R26). -/
def State.readReg8 (s : State) : RegName → Except Fault Byte
  | .A => .ok s.regs.a
  | .B => .ok s.regs.b
  | .C => .ok s.regs.c
  | .D => .ok s.regs.d
  | .E => .ok s.regs.e
  | .H => .ok s.regs.h
  | .L => .ok s.regs.l
  | .BC => .error (.invalidRegisterWidth .BC .w8)
  | .DE => .error (.invalidRegisterWidth .DE .w8)
  | .HL => .error (.invalidRegisterWidth .HL .w8)
  | .SP => .error (.invalidRegisterWidth .SP .w8)
  | .PC => .error (.invalidRegisterWidth .PC .w8)

/-- The width-16 read `x[r]` (R26). -/
def State.readReg16 (s : State) : RegName → Except Fault Word
  | .BC => .ok s.regs.bc
  | .DE => .ok s.regs.de
  | .HL => .ok s.regs.hl
  | .SP => .ok s.sp
  | .A => .error (.invalidRegisterWidth .A .w16)
  | .B => .error (.invalidRegisterWidth .B .w16)
  | .C => .error (.invalidRegisterWidth .C .w16)
  | .D => .error (.invalidRegisterWidth .D .w16)
  | .E => .error (.invalidRegisterWidth .E .w16)
  | .H => .error (.invalidRegisterWidth .H .w16)
  | .L => .error (.invalidRegisterWidth .L .w16)
  | .PC => .error (.invalidRegisterWidth .PC .w16)

/-- The width-8 write `x[r] <- v` (R27). -/
def State.writeReg8 (s : State) (r : RegName) (v : Byte) : Except Fault State :=
  match r with
  | .A => .ok (s.setRegs { s.regs with a := v })
  | .B => .ok (s.setRegs { s.regs with b := v })
  | .C => .ok (s.setRegs { s.regs with c := v })
  | .D => .ok (s.setRegs { s.regs with d := v })
  | .E => .ok (s.setRegs { s.regs with e := v })
  | .H => .ok (s.setRegs { s.regs with h := v })
  | .L => .ok (s.setRegs { s.regs with l := v })
  | .BC => .error (.invalidRegisterWidth .BC .w8)
  | .DE => .error (.invalidRegisterWidth .DE .w8)
  | .HL => .error (.invalidRegisterWidth .HL .w8)
  | .SP => .error (.invalidRegisterWidth .SP .w8)
  | .PC => .error (.invalidRegisterWidth .PC .w8)

/-- The width-16 write `x[r] <- v` (R27, R23). -/
def State.writeReg16 (s : State) (r : RegName) (v : Word) : Except Fault State :=
  match r with
  | .BC => .ok (s.setRegs (s.regs.setBC v))
  | .DE => .ok (s.setRegs (s.regs.setDE v))
  | .HL => .ok (s.setRegs (s.regs.setHL v))
  | .SP => .ok (s.setSp v)
  | .A => .error (.invalidRegisterWidth .A .w16)
  | .B => .error (.invalidRegisterWidth .B .w16)
  | .C => .error (.invalidRegisterWidth .C .w16)
  | .D => .error (.invalidRegisterWidth .D .w16)
  | .E => .error (.invalidRegisterWidth .E .w16)
  | .H => .error (.invalidRegisterWidth .H .w16)
  | .L => .error (.invalidRegisterWidth .L .w16)
  | .PC => .error (.invalidRegisterWidth .PC .w16)

/-- The outcome of a handler: its last state, or the fault it raised, with nothing kept (R15, R206). -/
def outcome : Except Fault State → Host.Outcome State Fault Refusal
  | .ok s => .next s
  | .error f => .fault f

end Sys2Proof.Machine
end

