-- ==== Sys2Proof/Machine/Flags.lean ====
section
/-! DEFINITION. The two flag computations of the CORE (spec/10_state.md R30); a flag not named is unchanged (R31). -/

namespace Sys2Proof.Machine

/-- The flags after the exclusive-or with result `r` (R180). -/
def flagsAfterXor (r : Byte) : Flags := { z := r == 0, n := false, h := false, c := false }

/-- The flags after a test of bit 7 of `v` (R181 to R187): carry is kept. -/
def flagsAfterBit7 (v : Byte) (old : Flags) : Flags := { z := !v.getLsbD 7, n := false, h := true, c := old.c }

/-- The condition `NZ` (R103, R160). -/
def conditionNZ (flags : Flags) : Bool := !flags.z

end Sys2Proof.Machine
end

