-- ==== Sys2Proof/Machine/Operands.lean ====
section
/-! DEFINITION. The four addressing modes of spec/43_store.md R172: immediate (carried by the instruction), register, pair
indirect with post-decrement, high page indexed; and the branch target. Arithmetic is that of spec/00_scope.md R14. -/

namespace Sys2Proof.Machine

/-- `zext_16` (R14). -/
def zext16 (v : Byte) : Word := v.setWidth 16

/-- `sext_16` (R14): `v` when bit 7 is 0, `v + 0xFF00` when it is 1. -/
def sext16 (v : Byte) : Word := if v.getLsbD 7 then v.setWidth 16 + 0xFF00 else v.setWidth 16

/-- The Addressable Location (R16): a named register or a bus address. It is transient, never part of the state. -/
inductive Location where
  | reg (r : RegName)
  | addr (a : Word)
  deriving DecidableEq, Repr

/-- `store8` (R16, R151): the one store primitive of the register loads and of the high-RAM store. -/
def State.store8 (s : State) (destination : Location) (v : Byte) : Except Fault State :=
  match destination with
  | .reg r => s.writeReg8 r v
  | .addr a => s.writeU8 a v

/-- The address of the high-RAM store: `0xFF00 + zext_16(x[C])` (R171). -/
def highPageAddress (c : Byte) : Word := Config.highBase + zext16 c

/-- The pair value after the post-decrement: it wraps (R170, R14). -/
def postDecrement (a : Word) : Word := a - 1

/-- The address of the instruction after the branch, which is also where a branch not taken goes (R160). -/
def branchFallThrough (p : Word) : Word := p + 2

/-- The target of a taken branch, relative to the next instruction (R160). -/
def branchTarget (p : Word) (e8 : Byte) : Word := branchFallThrough p + sext16 e8

end Sys2Proof.Machine
end

