-- ==== Sys2Proof/Machine/Branch.lean ====
section
/-! DEFINITION. The relative conditional branch (spec/42_relative_branch.md), the only control transfer (R162). -/

namespace Sys2Proof.Machine

/-- `JR NZ,e8` (R160). The target is not checked: a bad one faults at the next fetch. -/
def execJrNZ (e8 : Byte) (s : State) : Host.Outcome State Fault Refusal :=
  .next (s.setPc (if conditionNZ s.flags then branchTarget s.pc e8 else branchFallThrough s.pc))

end Sys2Proof.Machine
end

