-- ==== Sys2Proof/Machine/Load.lean ====
section
/-! DEFINITION. The eleven load-immediate instructions (spec/41_load_immediate.md). `s.pc` is `P`, the address of the opcode
byte; each meaning is the complete effect from `P` (spec/40_step_fetch_dispatch.md R121). -/

namespace Sys2Proof.Machine

/-- `x[r] <- d8; pc <- P + 2`, through `store8` (R151). -/
def loadImmediate8 (r : RegName) (d8 : Byte) (s : State) : Except Fault State := do
  let s1 ← s.store8 (.reg r) d8
  return s1.setPc (s.pc + 2)

/-- `x[r] <- d16; pc <- P + 3`. -/
def loadImmediate16 (r : RegName) (d16 : Word) (s : State) : Except Fault State := do
  let s1 ← s.writeReg16 r d16
  return s1.setPc (s.pc + 3)

/-- `LD B,d8` (R140). -/
def execLdB (d8 : Byte) (s : State) : Host.Outcome State Fault Refusal := outcome (loadImmediate8 .B d8 s)

/-- `LD C,d8` (R141). -/
def execLdC (d8 : Byte) (s : State) : Host.Outcome State Fault Refusal := outcome (loadImmediate8 .C d8 s)

/-- `LD D,d8` (R142). -/
def execLdD (d8 : Byte) (s : State) : Host.Outcome State Fault Refusal := outcome (loadImmediate8 .D d8 s)

/-- `LD E,d8` (R143). -/
def execLdE (d8 : Byte) (s : State) : Host.Outcome State Fault Refusal := outcome (loadImmediate8 .E d8 s)

/-- `LD H,d8` (R144). -/
def execLdH (d8 : Byte) (s : State) : Host.Outcome State Fault Refusal := outcome (loadImmediate8 .H d8 s)

/-- `LD L,d8` (R145). -/
def execLdL (d8 : Byte) (s : State) : Host.Outcome State Fault Refusal := outcome (loadImmediate8 .L d8 s)

/-- `LD A,d8` (R146). -/
def execLdA (d8 : Byte) (s : State) : Host.Outcome State Fault Refusal := outcome (loadImmediate8 .A d8 s)

/-- `LD BC,d16` (R147). -/
def execLdBC (d16 : Word) (s : State) : Host.Outcome State Fault Refusal := outcome (loadImmediate16 .BC d16 s)

/-- `LD DE,d16` (R148). -/
def execLdDE (d16 : Word) (s : State) : Host.Outcome State Fault Refusal := outcome (loadImmediate16 .DE d16 s)

/-- `LD HL,d16` (R149). -/
def execLdHL (d16 : Word) (s : State) : Host.Outcome State Fault Refusal := outcome (loadImmediate16 .HL d16 s)

/-- `LD SP,d16` (R150): no byte register changes. -/
def execLdSP (d16 : Word) (s : State) : Host.Outcome State Fault Refusal := outcome (loadImmediate16 .SP d16 s)

end Sys2Proof.Machine
end

