-- ==== Sys2Proof/Machine/Logic.lean ====
section
/-! DEFINITION. The exclusive-or and the seven bit tests (spec/44_logic_and_bit.md), the only writers of flags. -/

namespace Sys2Proof.Machine

/-- The statements of R180 in their order. -/
def xorWithItself (s : State) : Except Fault State := do
  let v ← s.readReg8 .A
  let r := v ^^^ v
  let s1 ← s.writeReg8 .A r
  return (s1.setFlags (flagsAfterXor r)).setPc (s.pc + 1)

/-- `flag.Z <- (x[r][7] = 0); flag.N <- 0; flag.H <- 1; pc <- P + 2` (R181 to R187). -/
def testBit7 (r : RegName) (s : State) : Except Fault State := do
  let v ← s.readReg8 r
  return (s.setFlags (flagsAfterBit7 v s.flags)).setPc (s.pc + 2)

/-- `XOR A` (R180). -/
def execXorA (s : State) : Host.Outcome State Fault Refusal := outcome (xorWithItself s)

/-- `BIT 7,B` (R181). -/
def execBit7B (s : State) : Host.Outcome State Fault Refusal := outcome (testBit7 .B s)

/-- `BIT 7,C` (R182). -/
def execBit7C (s : State) : Host.Outcome State Fault Refusal := outcome (testBit7 .C s)

/-- `BIT 7,D` (R183). -/
def execBit7D (s : State) : Host.Outcome State Fault Refusal := outcome (testBit7 .D s)

/-- `BIT 7,E` (R184). -/
def execBit7E (s : State) : Host.Outcome State Fault Refusal := outcome (testBit7 .E s)

/-- `BIT 7,H` (R185). -/
def execBit7H (s : State) : Host.Outcome State Fault Refusal := outcome (testBit7 .H s)

/-- `BIT 7,L` (R186). -/
def execBit7L (s : State) : Host.Outcome State Fault Refusal := outcome (testBit7 .L s)

/-- `BIT 7,A` (R187). -/
def execBit7A (s : State) : Host.Outcome State Fault Refusal := outcome (testBit7 .A s)

end Sys2Proof.Machine
end

