-- ==== Sys2Proof/Machine/Store.lean ====
section
/-! DEFINITION. The two store instructions (spec/43_store.md). Both store register A; neither writes a flag. -/

namespace Sys2Proof.Machine

/-- The statements of R170 in their order; the store uses `HL` before the decrement. -/
def storeAndDecrement (s : State) : Except Fault State := do
  let a ← s.readReg16 .HL
  let v ← s.readReg8 .A
  let s1 ← s.writeU8 a v
  let s2 ← s1.writeReg16 .HL (postDecrement a)
  return s2.setPc (s.pc + 1)

/-- The statements of R171 in their order. -/
def storeHighPage (s : State) : Except Fault State := do
  let c ← s.readReg8 .C
  let v ← s.readReg8 .A
  let s1 ← s.store8 (.addr (highPageAddress c)) v
  return s1.setPc (s.pc + 1)

/-- `LD (HL-),A` (R170). -/
def execLdHLDecA (s : State) : Host.Outcome State Fault Refusal := outcome (storeAndDecrement s)

/-- `LD (C),A` (R171). -/
def execLdHighCA (s : State) : Host.Outcome State Fault Refusal := outcome (storeHighPage s)

/-- The address an instruction stores to; none for the twenty that store nothing (R71). -/
def storeAddress (i : Instr) (s : State) : Option Word :=
  match i with
  | .ldHLDecA => some s.regs.hl
  | .ldHighCA => some (highPageAddress s.regs.c)
  | .ldB _ | .ldC _ | .ldD _ | .ldE _ | .ldH _ | .ldL _ | .ldA _ => none
  | .ldBC _ | .ldDE _ | .ldHL _ | .ldSP _ | .jrNZ _ | .xorA => none
  | .bit7B | .bit7C | .bit7D | .bit7E | .bit7H | .bit7L | .bit7A => none

end Sys2Proof.Machine
end

