-- ==== Sys2Proof/Machine/Dispatch.lean ====
section
/-! DEFINITION. The dispatch: one arm per instruction. `exec i s` is the handler of `i` on a state whose `pc` is the address of
its opcode byte; the latch is tested by `step`, before the fetch (spec/40_step_fetch_dispatch.md R121; log 15). -/

namespace Sys2Proof.Machine

def exec (i : Instr) (s : State) : Host.Outcome State Fault Refusal :=
  match i with
  | .ldB d8 => Sys2Proof.Machine.execLdB d8 s
  | .ldC d8 => Sys2Proof.Machine.execLdC d8 s
  | .ldD d8 => Sys2Proof.Machine.execLdD d8 s
  | .ldE d8 => Sys2Proof.Machine.execLdE d8 s
  | .ldH d8 => Sys2Proof.Machine.execLdH d8 s
  | .ldL d8 => Sys2Proof.Machine.execLdL d8 s
  | .ldA d8 => Sys2Proof.Machine.execLdA d8 s
  | .ldBC d16 => Sys2Proof.Machine.execLdBC d16 s
  | .ldDE d16 => Sys2Proof.Machine.execLdDE d16 s
  | .ldHL d16 => Sys2Proof.Machine.execLdHL d16 s
  | .ldSP d16 => Sys2Proof.Machine.execLdSP d16 s
  | .jrNZ e8 => Sys2Proof.Machine.execJrNZ e8 s
  | .ldHLDecA => Sys2Proof.Machine.execLdHLDecA s
  | .ldHighCA => Sys2Proof.Machine.execLdHighCA s
  | .xorA => Sys2Proof.Machine.execXorA s
  | .bit7B => Sys2Proof.Machine.execBit7B s
  | .bit7C => Sys2Proof.Machine.execBit7C s
  | .bit7D => Sys2Proof.Machine.execBit7D s
  | .bit7E => Sys2Proof.Machine.execBit7E s
  | .bit7H => Sys2Proof.Machine.execBit7H s
  | .bit7L => Sys2Proof.Machine.execBit7L s
  | .bit7A => Sys2Proof.Machine.execBit7A s

end Sys2Proof.Machine
end

