-- ==== Sys2Proof/Machine/Fetch.lean ====
section
/-! DEFINITION. Fetch and decode of one instruction through the bus, in the order of spec/40_step_fetch_dispatch.md R121, which
decides the fault a step reports (spec/60_exceptions.md R210); and the placing of a table word for the host's questions. -/

namespace Sys2Proof.Machine

/-- A fetched instruction with `byte0`, the opcode a step result reports (R125). -/
structure Fetched where
  opcode : Byte
  instr : Instr
  deriving DecidableEq, Repr

/-- What a first byte `op` fetched at `p`, with its row, makes the fetch read after it (R121, R98): an unassigned first byte
reads nothing more (R201), the 16-bit immediate is one `read_u16`. -/
def fetchRow (s : State) (p : Word) (op : Byte) : Option Row → Except Fault Instr
  | none => .error (.unknownOpcode op p)
  | some (.op i) => .ok i
  | some (.opD8 make) => do
    let d8 ← s.readU8 (p + 1)
    return make d8
  | some (.opE8 make) => do
    let e8 ← s.readU8 (p + 1)
    return make e8
  | some (.opD16 make) => do
    let d16 ← s.readU16 (p + 1)
    return make d16
  | some .cbXop => do
    let xop ← s.readU8 (p + 1)
    match extendedInstr xop with
    | some i => return i
    | none => .error (.unknownExtendedOpcode xop (p + 1))

/-- The rest of the instruction whose first byte `op` was fetched at `p`. -/
def fetchRest (s : State) (p : Word) (op : Byte) : Except Fault Instr := fetchRow s p op (firstByteRow op)

/-- The instruction at `pc`, or the first fault met while reading it. -/
def fetch (s : State) : Except Fault Fetched := do
  let op ← s.readU8 s.pc
  let i ← fetchRest s s.pc op
  return { opcode := op, instr := i }

/-- The state with bytes stored from address `p` on; a byte for an address that stores nothing is dropped. -/
def State.placeBytes (s : State) (p : Word) : List Byte → State
  | [] => s
  | v :: bytes =>
    match s.writeU8 p v with
    | .ok t => State.placeBytes t (p + 1) bytes
    | .error _ => State.placeBytes s (p + 1) bytes

/-- The state with a table word laid out where the next fetch reads, and ready to fetch (log 4). -/
def placeTableWord (s : State) (nbits w : Nat) : State :=
  (s.placeBytes s.pc (tableWordBytes nbits w)).clearFault

end Sys2Proof.Machine
end

