-- ==== Sys2Proof/Machine/Step.lean ====
section
/-! DEFINITION. One step (spec/40_step_fetch_dispatch.md R120 and R121). -/

namespace Sys2Proof.Machine

/-- One `IF-STEP` request: in `FAULTED` the recorded fault again (R205), else fetch, decode and run one instruction.
`.next t` is the response `Ok` with `t` the state after it; `.fault f` is the response `Fault` with kind and payload `f`. The
state after a fault is that before it with the latch set (R206): `ifStep` in Machine/Interface.lean gives it (log 1). -/
def step (s : State) : Host.Outcome State Fault Refusal :=
  match s.faultRecord with
  | some f => .fault f
  | none =>
    match fetch s with
    | .error f => .fault f
    | .ok fetched => exec fetched.instr s

/-- The state whose next step fetches the instruction of a table word (the host's fixed name; log 3 and 4). -/
def State.withFetchWord (s : State) (nbits w : Nat) : State := placeTableWord s nbits w

end Sys2Proof.Machine
end

