-- ==== Sys2Proof/Machine/Trace.lean ====
section
/-! DEFINITION. The labels of the trace channel `IF-TRACE` (spec/20_memory.md R58 and R59). They are output only: no rule reads
them and no step depends on them. The text of a trace line is in no source and is not modelled (spec/00_scope.md R12; log 9). -/

namespace Sys2Proof.Machine

/-- The three parts of video RAM a write is classified into (R58). -/
inductive VramLabel where
  | characterRam
  | bgMapData1
  | bgMapData2
  deriving DecidableEq, Repr

/-- The label of a write at an offset into video RAM (R58). -/
def vramOffsetLabel (offset : Nat) : Option VramLabel :=
  if offset ≤ 0x17FF then some .characterRam
  else if offset ≤ 0x1BFF then some .bgMapData1
  else if offset ≤ 0x1FFF then some .bgMapData2
  else none

/-- The label of a write at a bus address; none outside video RAM. -/
def vramLabel (address : Word) : Option VramLabel :=
  match region address with
  | .vram => vramOffsetLabel (vramIndex address)
  | .ram | .io | .unimplemented => none

/-- The names of the address ranges (R59). -/
inductive RangeLabel where
  | restartInterruptVectors
  | cartridgeHeader
  | cartridgeRomBank0
  | cartridgeRomSwitchable
  | videoRam
  | cartridgeRamBank
  | internalRamBank0
  | internalRamBanks1to7
  | echoRam
  | oam
  | unusable
  | hardwareIo
  | zeroPage
  | interruptEnable
  deriving DecidableEq, Repr

/-- The name of the part an address lies in, by the table of R59 (the imitated platform's boundaries, the spec's decision D22). -/
def platformRange (address : Word) : RangeLabel :=
  let a := address.toNat
  if a ≤ 0x00FF then .restartInterruptVectors
  else if a ≤ 0x014F then .cartridgeHeader
  else if a ≤ 0x3FFF then .cartridgeRomBank0
  else if a ≤ 0x7FFF then .cartridgeRomSwitchable
  else if a ≤ 0x9FFF then .videoRam
  else if a ≤ 0xBFFF then .cartridgeRamBank
  else if a ≤ 0xCFFF then .internalRamBank0
  else if a ≤ 0xDFFF then .internalRamBanks1to7
  else if a ≤ 0xFDFF then .echoRam
  else if a ≤ 0xFE9F then .oam
  else if a ≤ 0xFEFF then .unusable
  else if a ≤ 0xFF7F then .hardwareIo
  else if a ≤ 0xFFFE then .zeroPage
  else .interruptEnable

/-- The informative label of an address (R59). In RAM no label applies, whatever part of the platform the address names there.
A label does not decide what an access does: the region does (R51). -/
def rangeLabel (address : Word) : Option RangeLabel :=
  match region address with
  | .ram => none
  | .vram | .io | .unimplemented => some (platformRange address)

end Sys2Proof.Machine
end

