-- ==== Sys2Proof/Machine/Interface.lean ====
section
/-! DEFINITION. The interfaces of spec/00_scope.md R8 to R11 as requests the machine serves, each indivisible: `IF-RESET`,
`IF-STEP` with its response and the state after it, `IF-BUS` between steps (spec/20_memory.md R70), `IF-OBS`. -/

namespace Sys2Proof.Machine

/-- `IF-RESET` (R8, R230): every piece of state at its value of R38, the image copied to RAM from address 0; an image longer
than the general RAM is refused (R6). What the machine held before does not matter (R232). -/
def ifReset (image : List Byte) : Host.Outcome State Fault Refusal :=
  if bootImageWellFormed image then .next (State.reset.setRam (Memory.load 0 image))
  else .refused (.bootImageTooLong image.length)

/-- The response to `IF-STEP` (R9). -/
inductive StepResponse where
  /-- The step result (R125): `pc` after the step, and `byte0` (0xCB for a prefixed instruction). -/
  | ok (pcAfter : Word) (opcode : Byte)
  /-- The fault, with no step result (R126). -/
  | fault (f : Fault)
  /-- An instruction without a meaning: no instruction of this model. -/
  | refused (r : Refusal)
  deriving DecidableEq, Repr

/-- `IF-STEP`: the response and the state after the request. A fault commits nothing but the latch and its record (R205,
R206); in `FAULTED` nothing changes and the recorded fault is answered again. -/
def ifStep (s : State) : StepResponse × State :=
  match s.faultRecord with
  | some f => (.fault f, s)
  | none =>
    match fetch s with
    | .error f => (.fault f, s.latchFault f)
    | .ok fetched =>
      match exec fetched.instr s with
      | .next t => (.ok t.pc fetched.opcode, t)
      | .fault f => (.fault f, s.latchFault f)
      | .refused r => (.refused r, s)

/-- What the host or the driver can ask of the machine between two steps (R8 to R11). -/
inductive HostRequest where
  | reset (image : List Byte)
  | step
  | readU8 (address : Word)
  | readU16 (address : Word)
  | writeU8 (address : Word) (value : Byte)
  | observe
  deriving DecidableEq, Repr

/-- What the machine answers. -/
inductive HostResponse where
  | done
  | refused (r : Refusal)
  | stepped (r : StepResponse)
  | byte (v : Byte)
  | word (v : Word)
  | fault (f : Fault)
  | observed (s : State)
  deriving DecidableEq, Repr

/-- One request served: the answer and the state after it. A fault of a bus access is the host's answer and does not set the
latch (R70); a read and an observation change nothing (R11, R52); a refused reset makes no machine, so the one there stays (log 7). -/
def serve (q : HostRequest) (s : State) : HostResponse × State :=
  match q with
  | .reset image =>
    match ifReset image with
    | .next t => (.done, t)
    | .fault f => (.fault f, s)
    | .refused r => (.refused r, s)
  | .step => (.stepped (ifStep s).1, (ifStep s).2)
  | .readU8 a =>
    match s.readU8 a with
    | .ok v => (.byte v, s)
    | .error f => (.fault f, s)
  | .readU16 a =>
    match s.readU16 a with
    | .ok v => (.word v, s)
    | .error f => (.fault f, s)
  | .writeU8 a v =>
    match s.writeU8 a v with
    | .ok t => (.done, t)
    | .error f => (.fault f, s)
  | .observe => (.observed s, s)

/-- A sequence of requests, served in order: the state after the last. -/
def serveAll : List HostRequest → State → State
  | [], s => s
  | q :: qs, s => serveAll qs (serve q s).2

end Sys2Proof.Machine
end

