-- ==== Sys2Proof/Safety.lean ====
section
/-! DEFINITION. What claims call a good state and a safe run. -/

namespace Sys2Proof.Machine

/-- The two arrays are in canonical form and inside their sizes (R34): the invariant of the representation, in every state
from reset on. -/
def State.MemoryInv (s : State) : Prop :=
  s.ram.wf ∧ s.vram.wf ∧ s.ram.within Config.ramSize ∧ s.vram.within Config.vramSize

/-- `N` and `C` are 0 (R188: from reset onward, since nothing sets either to 1). -/
def State.FlagInv (s : State) : Prop := s.flags.n = false ∧ s.flags.c = false

/-- A recorded fault is one a step can raise: never `InvalidRegisterWidth` (R27, R203). -/
def State.LatchInv (s : State) : Prop := ∀ r w, s.faultRecord ≠ some (.invalidRegisterWidth r w)

/-- A run of `k` steps from `s` that no fault ends (R205: a state in `FAULTED` is never the successful end of a run). -/
def SafeRun (k : Nat) (s : State) : Prop := ∃ t : State, Sys2Proof.core.run k s = .next t

end Sys2Proof.Machine
end

