-- ==== Sys2Proof/Certificates/Slice0/Obligations.lean ====
section
/-! DEFINITION. The statements for the provers, and the few tables and relations they are written with. Opcode byte values
follow 30_encoding.md R94 and R95, which are the spec's decision D1 (log 10). "The latch" is 10_state.md R36 (decision D8). -/

namespace Sys2Proof.Machine

/-- The sixteen assigned first bytes (R94). -/
def assignedFirstBytes : List Byte :=
  [0x01, 0x06, 0x0E, 0x11, 0x16, 0x1E, 0x20, 0x21, 0x26, 0x2E, 0x31, 0x32, 0x3E, 0xAF, 0xCB, 0xE2]

/-- The seven assigned extended opcodes (R95). -/
def assignedExtendedBytes : List Byte := [0x78, 0x79, 0x7A, 0x7B, 0x7C, 0x7D, 0x7F]

/-- The seven byte register names (R21). -/
def byteRegisters : List RegName := [.A, .B, .C, .D, .E, .H, .L]

/-- The four names with a width-16 access (R26, R27). -/
def wordRegisters : List RegName := [.BC, .DE, .HL, .SP]

/-- The byte registers an instruction writes (the "written by" column of the table under R27). -/
def destinations : Instr → List RegName
  | .ldB _ => [.B]
  | .ldC _ => [.C]
  | .ldD _ => [.D]
  | .ldE _ => [.E]
  | .ldH _ => [.H]
  | .ldL _ => [.L]
  | .ldA _ => [.A]
  | .ldBC _ => [.B, .C]
  | .ldDE _ => [.D, .E]
  | .ldHL _ => [.H, .L]
  | .ldHLDecA => [.H, .L]
  | .xorA => [.A]
  | .ldSP _ | .jrNZ _ | .ldHighCA => []
  | .bit7B | .bit7C | .bit7D | .bit7E | .bit7H | .bit7L | .bit7A => []

/-- The register a bit test reads (R181 to R187); none for the other instructions. -/
def testedRegister : Instr → Option RegName
  | .bit7B => some .B
  | .bit7C => some .C
  | .bit7D => some .D
  | .bit7E => some .E
  | .bit7H => some .H
  | .bit7L => some .L
  | .bit7A => some .A
  | .ldB _ | .ldC _ | .ldD _ | .ldE _ | .ldH _ | .ldL _ | .ldA _ => none
  | .ldBC _ | .ldDE _ | .ldHL _ | .ldSP _ | .jrNZ _ => none
  | .ldHLDecA | .ldHighCA | .xorA => none

/-- Two outcomes of the same kind: the same fault, the same refusal, or next states in the relation. -/
def sameOutcome (related : State → State → Prop) : (o o' : Host.Outcome State Fault Refusal) → Prop
  | .next t, .next t' => related t t'
  | .fault f, .fault f' => f = f'
  | .refused r, .refused r' => r = r'
  | _, _ => False

/-- The fault of a step that is not `FAULTED`, by the eight rows of the table of R210, in their order; none if no check fails.
On this map no state meets the seventh row (see `loads16`). -/
def firstFaultByTable (s : State) : Option Fault :=
  let p := s.pc
  match s.readU8 p with
  | .error _ => some (.unimplementedMemoryRegion p .read)
  | .ok byte0 =>
    if byte0 ∉ assignedFirstBytes then some (.unknownOpcode byte0 p)
    else if byte0 = 0xCB then
      match s.readU8 (p + 1) with
      | .error _ => some (.unimplementedMemoryRegion (p + 1) .read)
      | .ok byte1 =>
        if byte1 ∉ assignedExtendedBytes then some (.unknownExtendedOpcode byte1 (p + 1)) else none
    else if byte0 ∈ ([0x06, 0x0E, 0x16, 0x1E, 0x26, 0x2E, 0x3E, 0x20] : List Byte) then
      match s.readU8 (p + 1) with
      | .error _ => some (.unimplementedMemoryRegion (p + 1) .read)
      | .ok _ => none
    else if byte0 ∈ ([0x01, 0x11, 0x21, 0x31] : List Byte) then
      match s.readU8 (p + 2), s.readU8 (p + 1) with
      | .error _, _ => some (.unimplementedMemoryRegion (p + 2) .read)
      | .ok _, .error _ => some (.unimplementedMemoryRegion (p + 1) .read)
      | .ok _, .ok _ => none
    else if byte0 = 0x32 then
      if region s.regs.hl = .unimplemented then some (.unimplementedMemoryRegion s.regs.hl .write) else none
    else if byte0 = 0xE2 then
      if region (0xFF00 + s.regs.c.setWidth 16) = .unimplemented then
        some (.unimplementedMemoryRegion (0xFF00 + s.regs.c.setWidth 16) .write)
      else none
    else none

/-- The opcode byte cannot be read: the step raises that fault and commits nothing but the latch. -/
def opcodeFetchFaults (s : State) : Prop :=
  ∀ f, s.readU8 s.pc = .error f →
    f = .unimplementedMemoryRegion s.pc .read ∧ ifStep s = (.fault f, { s with faultRecord := some f })

/-- The whole of a rule of the family `LD r,d8`: the handler's effect, and the step on its encoding with its faults. -/
def loads8 (opcode : Byte) (instr : Byte → Instr) (put : Byte → Regs → Regs) : Prop :=
  (∀ s d8, exec (instr d8) s = .next { s with regs := put d8 s.regs, pc := s.pc + 2 }) ∧
  (∀ s, s.faultRecord = none → opcodeFetchFaults s ∧
    (s.readU8 s.pc = .ok opcode →
      (∀ d8, s.readU8 (s.pc + 1) = .ok d8 →
        ifStep s = (.ok (s.pc + 2) opcode, { s with regs := put d8 s.regs, pc := s.pc + 2 })) ∧
      (∀ f, s.readU8 (s.pc + 1) = .error f →
        f = .unimplementedMemoryRegion (s.pc + 1) .read ∧
        ifStep s = (.fault f, { s with faultRecord := some f }))))

/-- The whole of a rule of the family `LD rr,d16`: effect, encoding, and the order of its three fetches. On this map a readable
opcode and a readable high byte leave no unreadable low byte between them, so the low byte's fault is stated of the operand
fetch at any address (0xFFFE has a readable high byte, at 0x0000, and an unreadable low one). -/
def loads16 (opcode : Byte) (instr : Word → Instr) (put : Word → State → State) : Prop :=
  (∀ s d16, exec (instr d16) s = .next { put d16 s with pc := s.pc + 3 }) ∧
  (∀ s, s.faultRecord = none → opcodeFetchFaults s ∧
    (s.readU8 s.pc = .ok opcode →
      (∀ low high, s.readU8 (s.pc + 1) = .ok low → s.readU8 (s.pc + 2) = .ok high →
        ifStep s = (.ok (s.pc + 3) opcode, { put (BitVec.ofNat 16 (high.toNat * 256 + low.toNat)) s with pc := s.pc + 3 })) ∧
      (∀ f, s.readU8 (s.pc + 2) = .error f →
        f = .unimplementedMemoryRegion (s.pc + 2) .read ∧
        ifStep s = (.fault f, { s with faultRecord := some f })) ∧
      (∀ high, s.readU8 (s.pc + 2) = .ok high → ∃ low, s.readU8 (s.pc + 1) = .ok low))) ∧
  (∀ s p high f, s.readU8 (p + 2) = .ok high → s.readU8 (p + 1) = .error f →
    f = .unimplementedMemoryRegion (p + 1) .read ∧ fetchRest s p opcode = .error f)

/-- The state after a bit test of a byte with value `v`. -/
def afterBitTest (v : Byte) (s : State) : State :=
  { s with flags := { z := !v.getLsbD 7, n := false, h := true, c := s.flags.c }, pc := s.pc + 2 }

/-- The whole of a rule of the family `BIT 7,r`: effect, encoding behind the prefix, and the two fetch faults. -/
def tests7 (byte1 : Byte) (instr : Instr) (reg : Regs → Byte) : Prop :=
  (∀ s, exec instr s = .next (afterBitTest (reg s.regs) s)) ∧
  (∀ s, s.faultRecord = none → opcodeFetchFaults s ∧
    (s.readU8 s.pc = .ok 0xCB →
      (s.readU8 (s.pc + 1) = .ok byte1 → ifStep s = (.ok (s.pc + 2) 0xCB, afterBitTest (reg s.regs) s)) ∧
      (∀ f, s.readU8 (s.pc + 1) = .error f →
        f = .unimplementedMemoryRegion (s.pc + 1) .read ∧
        ifStep s = (.fault f, { s with faultRecord := some f }))))

end Sys2Proof.Machine

open Sys2Proof Sys2Proof.Machine

/-! Encoding and decoding. -/

/-- Words written out from the formats and tables of 30_encoding.md (R91, R94, R95; byte values by decision D1). -/
def Obligations.WrittenOutWordsDecode : Prop :=
  decode [0b00000110, 0x12] = .instr (.ldB 0x12) [] ∧
  decode [0b00111110, 0x80, 0x55] = .instr (.ldA 0x80) [0x55] ∧
  decode [0b00000001, 0x34, 0x12] = .instr (.ldBC 0x1234) [] ∧
  decode [0b00110001, 0xFE, 0xFF] = .instr (.ldSP 0xFFFE) [] ∧
  decode [0b00100000, 0xFB] = .instr (.jrNZ 0xFB) [] ∧
  decode [0b00110010] = .instr .ldHLDecA [] ∧
  decode [0b11100010] = .instr .ldHighCA [] ∧
  decode [0b10101111] = .instr .xorA [] ∧
  decode [0b11001011, 0b01111100] = .instr .bit7H [] ∧
  decode [0xCB, 0xCB] = .unknownExtendedOpcode 0xCB ∧
  decode [0x00] = .unknownOpcode 0x00

/-- R94 and R95 row by row, for every operand byte (byte values by decision D1). -/
def Obligations.OpcodeTablesDecodeRowByRow : Prop :=
  ∀ (b1 b2 : Byte) (rest : List Byte),
    decode (0x01 :: b1 :: b2 :: rest) = .instr (.ldBC (BitVec.ofNat 16 (b2.toNat * 256 + b1.toNat))) rest ∧
    decode (0x11 :: b1 :: b2 :: rest) = .instr (.ldDE (BitVec.ofNat 16 (b2.toNat * 256 + b1.toNat))) rest ∧
    decode (0x21 :: b1 :: b2 :: rest) = .instr (.ldHL (BitVec.ofNat 16 (b2.toNat * 256 + b1.toNat))) rest ∧
    decode (0x31 :: b1 :: b2 :: rest) = .instr (.ldSP (BitVec.ofNat 16 (b2.toNat * 256 + b1.toNat))) rest ∧
    decode (0x06 :: b1 :: rest) = .instr (.ldB b1) rest ∧
    decode (0x0E :: b1 :: rest) = .instr (.ldC b1) rest ∧
    decode (0x16 :: b1 :: rest) = .instr (.ldD b1) rest ∧
    decode (0x1E :: b1 :: rest) = .instr (.ldE b1) rest ∧
    decode (0x26 :: b1 :: rest) = .instr (.ldH b1) rest ∧
    decode (0x2E :: b1 :: rest) = .instr (.ldL b1) rest ∧
    decode (0x3E :: b1 :: rest) = .instr (.ldA b1) rest ∧
    decode (0x20 :: b1 :: rest) = .instr (.jrNZ b1) rest ∧
    decode (0x32 :: rest) = .instr .ldHLDecA rest ∧
    decode (0xE2 :: rest) = .instr .ldHighCA rest ∧
    decode (0xAF :: rest) = .instr .xorA rest ∧
    decode (0xCB :: 0x78 :: rest) = .instr .bit7B rest ∧
    decode (0xCB :: 0x79 :: rest) = .instr .bit7C rest ∧
    decode (0xCB :: 0x7A :: rest) = .instr .bit7D rest ∧
    decode (0xCB :: 0x7B :: rest) = .instr .bit7E rest ∧
    decode (0xCB :: 0x7C :: rest) = .instr .bit7H rest ∧
    decode (0xCB :: 0x7D :: rest) = .instr .bit7L rest ∧
    decode (0xCB :: 0x7F :: rest) = .instr .bit7A rest

/-- R99 and R201: every unassigned byte is rejected by the decoder and faults the step, whatever bytes follow it. -/
def Obligations.UnassignedBytesAreUnknownOpcodes : Prop :=
  ((assignedFirstBytes.Nodup ∧ assignedFirstBytes.length = 256 - 240) ∧
    assignedExtendedBytes.Nodup ∧ assignedExtendedBytes.length = 256 - 249) ∧
  (∀ (byte0 : Byte) (rest : List Byte), byte0 ∉ assignedFirstBytes → decode (byte0 :: rest) = .unknownOpcode byte0) ∧
  (∀ (byte1 : Byte) (rest : List Byte), byte1 ∉ assignedExtendedBytes →
    decode (0xCB :: byte1 :: rest) = .unknownExtendedOpcode byte1) ∧
  (∀ (s : State) (byte0 : Byte), s.faultRecord = none → s.readU8 s.pc = .ok byte0 → byte0 ∉ assignedFirstBytes →
    step s = .fault (.unknownOpcode byte0 s.pc)) ∧
  (∀ (s : State) (byte1 : Byte), s.faultRecord = none → s.readU8 s.pc = .ok 0xCB → s.readU8 (s.pc + 1) = .ok byte1 →
    byte1 ∉ assignedExtendedBytes → step s = .fault (.unknownExtendedOpcode byte1 (s.pc + 1)))

/-- R102: the four cases of decoding, which exclude each other and leave none out, and what the decoder answers in each. -/
def Obligations.DecodingIsTotalOnEveryPair : Prop :=
  ∀ (byte0 byte1 byte2 : Byte) (rest : List Byte),
    (byte0 ∈ assignedFirstBytes → byte0 ≠ 0xCB →
      ∃ i rest', decode (byte0 :: byte1 :: byte2 :: rest) = .instr i rest') ∧
    (byte0 = 0xCB → byte1 ∈ assignedExtendedBytes →
      ∃ i, decode (byte0 :: byte1 :: byte2 :: rest) = .instr i (byte2 :: rest)) ∧
    (byte0 = 0xCB → byte1 ∉ assignedExtendedBytes →
      decode (byte0 :: byte1 :: byte2 :: rest) = .unknownExtendedOpcode byte1) ∧
    (byte0 ∉ assignedFirstBytes → decode (byte0 :: byte1 :: byte2 :: rest) = .unknownOpcode byte0)

/-- R92: the length is a function of the first byte; `pc` advances by it unless a branch is taken. -/
def Obligations.LengthByFirstByteAndAdvance : Prop :=
  (∀ (byte0 : Byte) (tail rest : List Byte) (i : Instr), decode (byte0 :: tail) = .instr i rest →
    (byte0 :: tail).length = rest.length + i.length ∧
    ((byte0 ∈ ([0x06, 0x0E, 0x16, 0x1E, 0x26, 0x2E, 0x3E] : List Byte) ∧ i.length = 2) ∨
     (byte0 ∈ ([0x01, 0x11, 0x21, 0x31] : List Byte) ∧ i.length = 3) ∨
     (byte0 = 0x20 ∧ i.length = 2) ∨
     (byte0 ∈ ([0x32, 0xAF, 0xE2] : List Byte) ∧ i.length = 1) ∨
     (byte0 = 0xCB ∧ i.length = 2))) ∧
  (∀ (s : State) (byte0 : Byte), s.faultRecord = none → s.readU8 s.pc = .ok byte0 → byte0 ∉ assignedFirstBytes →
    step s = .fault (.unknownOpcode byte0 s.pc)) ∧
  (∀ (i : Instr) (s t : State), exec i s = .next t → ¬ ((∃ e8, i = .jrNZ e8) ∧ s.flags.z = false) →
    t.pc = s.pc + BitVec.ofNat 16 i.length)

/-- Decode after encode, for every instruction with every operand, whatever follows it (30_encoding.md sections 1 to 4). -/
def Obligations.DecodeOfEncodeIsTheInstruction : Prop :=
  ∀ (i : Instr) (rest : List Byte), i.wellFormed = true → decode (encode i ++ rest) = .instr i rest

/-- Encode after decode: bytes that decode are the encoding of what they decode to, so each has one meaning. -/
def Obligations.EncodeOfDecodeIsTheBytes : Prop :=
  ∀ (bytes rest : List Byte) (i : Instr), decode bytes = .instr i rest → bytes = encode i ++ rest ∧ i.wellFormed = true

/-! The step. -/

/-- R121: when the bytes at `pc` decode to an instruction, the step is its handler; `step` adds nothing around `exec`. -/
def Obligations.StepRunsTheDecodedInstruction : Prop :=
  ∀ (s : State) (bytes : List Byte) (i : Instr), s.faultRecord = none →
    (∀ (k : Nat) (h : k < bytes.length), s.readU8 (s.pc + BitVec.ofNat 16 k) = .ok bytes[k]) →
    decode bytes = .instr i [] → i.wellFormed = true → step s = exec i s

/-- The table of R210 (decision D20): a step faults exactly as the first failing check says, and otherwise completes. -/
def Obligations.StepFaultsByTheDetectionTable : Prop :=
  ∀ s : State, s.faultRecord = none →
    (∀ f, step s = .fault f ↔ firstFaultByTable s = some f) ∧
    ((∃ t, step s = .next t) ↔ firstFaultByTable s = none)

/-- R128: no step is refused, in any state. -/
def Obligations.NoStepIsRefused : Prop :=
  ∀ (s : State) (r : Refusal), step s ≠ .refused r

/-- R27 and R203: no step raises `InvalidRegisterWidth`, unless it is already the record (`LatchInv` rules that out). -/
def Obligations.NoStepRaisesInvalidRegisterWidth : Prop :=
  ∀ (s : State) (r : RegName) (w : Width), s.LatchInv → step s ≠ .fault (.invalidRegisterWidth r w)

/-- Every request the machine serves keeps `LatchInv`. -/
def Obligations.EveryRequestKeepsLatchInv : Prop :=
  ∀ (q : HostRequest) (s : State), s.LatchInv → (serve q s).2.LatchInv

/-- `IF-STEP` (R9, R125, R126; decisions D8, D10, D26): its response and the state after it, by the outcome of `step`. -/
def Obligations.StepResponseAndStateAfter : Prop :=
  ∀ s : State,
    (∀ t, step s = .next t → ∃ opcode, s.readU8 s.pc = .ok opcode ∧ ifStep s = (.ok t.pc opcode, t)) ∧
    (∀ f, step s = .fault f → s.faultRecord = none → ifStep s = (.fault f, { s with faultRecord := some f })) ∧
    (∀ f, s.faultRecord = some f → step s = .fault f ∧ ifStep s = (.fault f, s))

/-- R206 and R205 (decision D8): a faulting step keeps every register, flag and byte, and the next step answers it again. -/
def Obligations.FaultingStepCommitsNothing : Prop :=
  ∀ (s t : State) (f : Fault), s.faultRecord = none → ifStep s = (.fault f, t) →
    t.regs = s.regs ∧ t.sp = s.sp ∧ t.pc = s.pc ∧ t.flags = s.flags ∧
    (∀ a, t.readU8 a = s.readU8 a) ∧ t.faultRecord = some f ∧ step t = .fault f ∧ ifStep t = (.fault f, t)

/-- R205, R209, R232 (decision D8): whatever is asked of a `FAULTED` machine short of a reset, its record, registers, flags
and `pc` stay, so at most one fault is recorded between two resets. -/
def Obligations.OnlyResetLeavesFaulted : Prop :=
  ∀ (qs : List HostRequest) (s : State) (f : Fault), s.faultRecord = some f → (∀ image, .reset image ∉ qs) →
    (serveAll qs s).faultRecord = some f ∧ (serveAll qs s).regs = s.regs ∧ (serveAll qs s).sp = s.sp ∧
    (serveAll qs s).pc = s.pc ∧ (serveAll qs s).flags = s.flags ∧ step (serveAll qs s) = .fault f

/-- R205: a run from a `FAULTED` state has no successful step. -/
def Obligations.FaultedStateStartsNoSafeRun : Prop :=
  ∀ (s : State) (k : Nat), s.faulted = true → ¬ SafeRun (k + 1) s

/-- R70, R11 (decision D16): between steps the host reads without changing anything, writes only memory, and a fault of its
access goes to it and leaves the machine as it was. -/
def Obligations.HostAccessTouchesOnlyMemory : Prop :=
  ∀ (s : State) (a : Word) (v : Byte),
    (serve .observe s = (.observed s, s)) ∧
    (∀ b, s.readU8 a = .ok b → serve (.readU8 a) s = (.byte b, s)) ∧
    (∀ f, s.readU8 a = .error f → serve (.readU8 a) s = (.fault f, s)) ∧
    (∀ w, s.readU16 a = .ok w → serve (.readU16 a) s = (.word w, s)) ∧
    (∀ f, s.readU16 a = .error f → serve (.readU16 a) s = (.fault f, s)) ∧
    (∀ f, s.writeU8 a v = .error f → serve (.writeU8 a v) s = (.fault f, s)) ∧
    (∀ t, s.writeU8 a v = .ok t → serve (.writeU8 a v) s = (.done, t) ∧
      t.regs = s.regs ∧ t.sp = s.sp ∧ t.pc = s.pc ∧ t.flags = s.flags ∧ t.faultRecord = s.faultRecord)

/-! The bus. -/

/-- The map of R51 with its numbers (RAM placement by decision D3, reads of IO by D4): each access at each address. -/
def Obligations.BusMapDecidesEveryAccess : Prop :=
  ∀ (s : State) (a : Word) (v : Byte),
    (a.toNat ≤ 0x1FFF →
      s.readU8 a = .ok (s.ram.read a.toNat) ∧ s.writeU8 a v = .ok { s with ram := s.ram.write a.toNat v }) ∧
    (0x8000 ≤ a.toNat → a.toNat ≤ 0x9FFF →
      s.readU8 a = .ok (s.vram.read (a.toNat - 0x8000)) ∧
      s.writeU8 a v = .ok { s with vram := s.vram.write (a.toNat - 0x8000) v }) ∧
    (0xFF00 ≤ a.toNat → a.toNat ≤ 0xFF7F →
      s.readU8 a = .error (.unimplementedMemoryRegion a .read) ∧ s.writeU8 a v = .ok s) ∧
    ((0x2000 ≤ a.toNat ∧ a.toNat ≤ 0x7FFF) ∨ (0xA000 ≤ a.toNat ∧ a.toNat ≤ 0xFEFF) ∨ 0xFF80 ≤ a.toNat →
      s.readU8 a = .error (.unimplementedMemoryRegion a .read) ∧
      s.writeU8 a v = .error (.unimplementedMemoryRegion a .write))

/-- R54 to R57: what a write does in each region, read back through the bus. -/
def Obligations.WritesByRegion : Prop :=
  ∀ (s : State) (a : Word) (v : Byte), s.MemoryInv →
    (region a = .ram → ∃ t, s.writeU8 a v = .ok t ∧ t.ram.read a.toNat = v ∧ t.readU8 a = .ok v ∧
      (∀ b, b ≠ a → t.readU8 b = s.readU8 b) ∧ t = { s with ram := t.ram }) ∧
    (region a = .vram → ∃ t, s.writeU8 a v = .ok t ∧ t.vram.read (a.toNat - 0x8000) = v ∧ t.readU8 a = .ok v ∧
      (∀ b, b ≠ a → t.readU8 b = s.readU8 b) ∧ t = { s with vram := t.vram }) ∧
    (region a = .io → s.writeU8 a v = .ok s ∧ s.readU8 a = .error (.unimplementedMemoryRegion a .read)) ∧
    (region a = .unimplemented → s.writeU8 a v = .error (.unimplementedMemoryRegion a .write))

/-- R60 and R61 (decisions D5, D6): the high byte, at the next address modulo 65536, is read first. -/
def Obligations.ReadU16IsTwoReadsHighFirst : Prop :=
  ∀ (s : State) (a : Word),
    (∀ f, s.readU8 (a + 1) = .error f → s.readU16 a = .error f) ∧
    (∀ hi f, s.readU8 (a + 1) = .ok hi → s.readU8 a = .error f → s.readU16 a = .error f) ∧
    (∀ hi lo, s.readU8 (a + 1) = .ok hi → s.readU8 a = .ok lo →
      s.readU16 a = .ok (BitVec.ofNat 16 (hi.toNat * 256 + lo.toNat))) ∧
    (s.readU16 0xFFFF = .error (.unimplementedMemoryRegion 0xFFFF .read))

/-- Source property 2 (R60, R62): two byte writes at neighbouring addresses are what `read_u16` reads. -/
def Obligations.TwoWritesAreReadAsOneWord : Prop :=
  ∀ (s : State) (a : Word) (b0 b1 : Byte), s.MemoryInv →
    (region a = .ram ∨ region a = .vram) → (region (a + 1) = .ram ∨ region (a + 1) = .vram) →
    ∃ s1 s2, s.writeU8 a b0 = .ok s1 ∧ s1.writeU8 (a + 1) b1 = .ok s2 ∧ s2.readU16 a = .ok (BitVec.ofNat 16 (b1.toNat * 256 + b0.toNat))

/-- Every step keeps both arrays canonical and inside their sizes (R34; the representation is the model's, log 5). -/
def Obligations.EveryStepKeepsMemoryInv : Prop :=
  ∀ s t : State, s.MemoryInv → step s = .next t → t.MemoryInv

/-- Every request, a reset with any image among them, keeps both arrays canonical and inside their sizes (log 5). -/
def Obligations.EveryRequestKeepsMemoryInv : Prop :=
  ∀ (q : HostRequest) (s : State), s.MemoryInv → (serve q s).2.MemoryInv

/-- The three invariants hold at reset, with the empty image and with every image that fits. -/
def Obligations.InvariantsHoldAtReset : Prop :=
  (State.reset.MemoryInv ∧ State.reset.FlagInv ∧ State.reset.LatchInv) ∧
  ∀ (image : List Byte) (t : State), ifReset image = .next t → t.MemoryInv ∧ t.FlagInv ∧ t.LatchInv

/-- Two states that read alike at every bus address hold equal arrays (R34; the canonical form is the model's, log 5). -/
def Obligations.EqualReadsAreEqualMemories : Prop :=
  ∀ s t : State, s.MemoryInv → t.MemoryInv → (∀ a, s.readU8 a = t.readU8 a) → s.ram = t.ram ∧ s.vram = t.vram

/-! Reset. -/

/-- From R230 and R38: what a reset leaves in every piece of state, from any state before it; a longer image is refused (decision
D7). That the empty image's machine is `State.reset` is the model's choice of a reset state (log 2). -/
def Obligations.ResetGivesEveryPieceOfState : Prop :=
  (∀ image : List Byte, image.length ≤ 8192 → ∃ t : State, ifReset image = .next t ∧
    t.regs = { a := 0, b := 0, c := 0, d := 0, e := 0, h := 0, l := 0 } ∧ t.sp = 0 ∧ t.pc = 0 ∧
    t.flags = { z := false, n := false, h := false, c := false } ∧ t.faultRecord = none ∧
    (∀ (i : Nat) (h : i < image.length), t.readU8 (BitVec.ofNat 16 i) = .ok image[i]) ∧
    (∀ i : Nat, image.length ≤ i → i ≤ 8191 → t.readU8 (BitVec.ofNat 16 i) = .ok 0) ∧
    (∀ i : Nat, i ≤ 8191 → t.readU8 (BitVec.ofNat 16 (0x8000 + i)) = .ok 0) ∧
    (∀ s : State, serve (.reset image) s = (.done, t))) ∧
  (∀ image : List Byte, 8192 < image.length → ifReset image = .refused (.bootImageTooLong image.length)) ∧
  ifReset [] = .next State.reset

/-- R231: the first step after a reset with the empty image finds a zero byte at address 0 and faults. -/
def Obligations.EmptyImageFaultsAtAddressZero : Prop :=
  step State.reset = .fault (.unknownOpcode 0x00 0x0000)

/-! Registers. -/

/-- R23 and R24 (which half is high by decision D28): a pair and its two halves are one storage, whichever is written. -/
def Obligations.PairsAreTheirHalves : Prop :=
  ∀ (s : State) (pair high low : RegName), (pair, high, low) ∈ [(RegName.BC, RegName.B, RegName.C), (.DE, .D, .E), (.HL, .H, .L)] →
    (∀ w : Word, ∃ t, s.writeReg16 pair w = .ok t ∧ t.readReg16 pair = .ok w ∧
      t.readReg8 high = .ok (BitVec.ofNat 8 (w.toNat / 256)) ∧ t.readReg8 low = .ok (BitVec.ofNat 8 w.toNat)) ∧
    (∀ (v : Byte) (lo : Byte), s.readReg8 low = .ok lo →
      ∃ t, s.writeReg8 high v = .ok t ∧ t.readReg16 pair = .ok (BitVec.ofNat 16 (v.toNat * 256 + lo.toNat))) ∧
    (∀ (v : Byte) (hi : Byte), s.readReg8 high = .ok hi →
      ∃ t, s.writeReg8 low v = .ok t ∧ t.readReg16 pair = .ok (BitVec.ofNat 16 (hi.toNat * 256 + v.toNat)))

/-- R26, R27, R203 (decisions D12, D27): which names have which width, and the fault everywhere else. -/
def Obligations.RegisterWidthsAndTheirFault : Prop :=
  ∀ (s : State) (r : RegName) (v : Byte) (w : Word),
    (r ∈ byteRegisters → (∃ x, s.readReg8 r = .ok x) ∧ (∃ t, s.writeReg8 r v = .ok t)) ∧
    (r ∉ byteRegisters → s.readReg8 r = .error (.invalidRegisterWidth r .w8) ∧
      s.writeReg8 r v = .error (.invalidRegisterWidth r .w8)) ∧
    (r ∈ wordRegisters → (∃ x, s.readReg16 r = .ok x) ∧ (∃ t, s.writeReg16 r w = .ok t)) ∧
    (r ∉ wordRegisters → s.readReg16 r = .error (.invalidRegisterWidth r .w16) ∧
      s.writeReg16 r w = .error (.invalidRegisterWidth r .w16))

/-- R25: `sp` is zero after reset, written by `LD SP,d16` alone, and read by no instruction. -/
def Obligations.StackPointerIsWrittenByOneAndReadByNone : Prop :=
  State.reset.sp = 0 ∧
  (∀ (d16 : Word) (s : State), exec (.ldSP d16) s = .next { s with sp := d16, pc := s.pc + 3 }) ∧
  (∀ (i : Instr) (s t : State), exec i s = .next t → (∀ d16, i ≠ .ldSP d16) → t.sp = s.sp) ∧
  (∀ (i : Instr) (s : State) (v : Word),
    sameOutcome (fun t t' => t' = t ∨ t' = { t with sp := v }) (exec i s) (exec i { s with sp := v }))

/-! The instructions, family by family: effect, completion, encoding, faults. -/

/-- R140 to R146. -/
def Obligations.LoadImmediate8 : Prop :=
  loads8 0x06 .ldB (fun v r => { r with b := v }) ∧
  loads8 0x0E .ldC (fun v r => { r with c := v }) ∧
  loads8 0x16 .ldD (fun v r => { r with d := v }) ∧
  loads8 0x1E .ldE (fun v r => { r with e := v }) ∧
  loads8 0x26 .ldH (fun v r => { r with h := v }) ∧
  loads8 0x2E .ldL (fun v r => { r with l := v }) ∧
  loads8 0x3E .ldA (fun v r => { r with a := v })

/-- R147 to R149. -/
def Obligations.LoadImmediate16IntoPair : Prop :=
  loads16 0x01 .ldBC (fun w s => { s with regs := { s.regs with
    b := BitVec.ofNat 8 (w.toNat / 256), c := BitVec.ofNat 8 w.toNat } }) ∧
  loads16 0x11 .ldDE (fun w s => { s with regs := { s.regs with
    d := BitVec.ofNat 8 (w.toNat / 256), e := BitVec.ofNat 8 w.toNat } }) ∧
  loads16 0x21 .ldHL (fun w s => { s with regs := { s.regs with
    h := BitVec.ofNat 8 (w.toNat / 256), l := BitVec.ofNat 8 w.toNat } })

/-- R150 (its inclusion is decision D2): `sp` is loaded and no byte register changes. -/
def Obligations.LoadImmediate16IntoStackPointer : Prop :=
  loads16 0x31 .ldSP (fun w s => { s with sp := w })

/-- R160 (wrapping by decision D21): the branch goes to `P + 2 + O` when `Z = 0` and to `P + 2` when `Z = 1`; the offset byte
is read in both cases. -/
def Obligations.RelativeBranch : Prop :=
  (∀ (e8 : Byte) (s : State), s.flags.z = false →
    exec (.jrNZ e8) s = .next { s with pc := BitVec.ofInt 16 (s.pc.toNat + 2 + e8.toInt) }) ∧
  (∀ (e8 : Byte) (s : State), s.flags.z = true → exec (.jrNZ e8) s = .next { s with pc := s.pc + 2 }) ∧
  (∀ s : State, s.faultRecord = none → s.readU8 s.pc = .ok 0x20 →
    (∀ e8, s.readU8 (s.pc + 1) = .ok e8 →
      (s.flags.z = false → ifStep s = (.ok (BitVec.ofInt 16 (s.pc.toNat + 2 + e8.toInt)) 0x20,
        { s with pc := BitVec.ofInt 16 (s.pc.toNat + 2 + e8.toInt) })) ∧
      (s.flags.z = true → ifStep s = (.ok (s.pc + 2) 0x20, { s with pc := s.pc + 2 }))) ∧
    (∀ f, s.readU8 (s.pc + 1) = .error f →
      f = .unimplementedMemoryRegion (s.pc + 1) .read ∧ ifStep s = (.fault f, { s with faultRecord := some f })))

/-- R170 (its length is the spec's inference): the store at `HL`, the decrement, and the fault that leaves both undone. -/
def Obligations.StoreAndDecrement : Prop :=
  ∀ s : State,
    (region s.regs.hl ≠ .unimplemented → ∃ t, exec .ldHLDecA s = .next t ∧
      t.regs.hl = s.regs.hl - 1 ∧ t.regs = { s.regs with h := t.regs.h, l := t.regs.l } ∧
      t.pc = s.pc + 1 ∧ t.sp = s.sp ∧ t.flags = s.flags ∧ t.faultRecord = s.faultRecord ∧
      (∀ b, b ≠ s.regs.hl → t.readU8 b = s.readU8 b) ∧
      (region s.regs.hl = .io → t.ram = s.ram ∧ t.vram = s.vram) ∧
      (s.MemoryInv → region s.regs.hl = .ram ∨ region s.regs.hl = .vram → t.readU8 s.regs.hl = .ok s.regs.a) ∧
      (s.faultRecord = none → s.readU8 s.pc = .ok 0x32 → ifStep s = (.ok (s.pc + 1) 0x32, t))) ∧
    (region s.regs.hl = .unimplemented →
      exec .ldHLDecA s = .fault (.unimplementedMemoryRegion s.regs.hl .write) ∧
      (s.faultRecord = none → s.readU8 s.pc = .ok 0x32 →
        ifStep s = (.fault (.unimplementedMemoryRegion s.regs.hl .write),
          { s with faultRecord := some (.unimplementedMemoryRegion s.regs.hl .write) })))

/-- R171: for `C` up to 0x7F the write is accepted and dropped, so only `pc` changes; from 0x80 on it faults. -/
def Obligations.HighPageStore : Prop :=
  ∀ s : State,
    (s.regs.c.toNat ≤ 0x7F →
      exec .ldHighCA s = .next { s with pc := s.pc + 1 } ∧
      (s.faultRecord = none → s.readU8 s.pc = .ok 0xE2 → ifStep s = (.ok (s.pc + 1) 0xE2, { s with pc := s.pc + 1 }))) ∧
    (0x80 ≤ s.regs.c.toNat → ∀ f, f = .unimplementedMemoryRegion (BitVec.ofNat 16 (0xFF00 + s.regs.c.toNat)) .write →
      exec .ldHighCA s = .fault f ∧
      (s.faultRecord = none → s.readU8 s.pc = .ok 0xE2 → ifStep s = (.fault f, { s with faultRecord := some f }))) ∧
    (s.faultRecord = none → opcodeFetchFaults s)

/-- R180 (its length is the spec's inference): `A` becomes 0 and the flags 1 0 0 0, whatever they were. -/
def Obligations.ExclusiveOrWithItself : Prop :=
  ∀ s t : State,
    t = { s with regs := { s.regs with a := 0 }, flags := { z := true, n := false, h := false, c := false }, pc := s.pc + 1 } →
    exec .xorA s = .next t ∧
    (s.faultRecord = none → s.readU8 s.pc = .ok 0xAF → ifStep s = (.ok (s.pc + 1) 0xAF, t))

/-- R181 to R187. -/
def Obligations.BitTests : Prop :=
  tests7 0x78 .bit7B Regs.b ∧ tests7 0x79 .bit7C Regs.c ∧ tests7 0x7A .bit7D Regs.d ∧ tests7 0x7B .bit7E Regs.e ∧
  tests7 0x7C .bit7H Regs.h ∧ tests7 0x7D .bit7L Regs.l ∧ tests7 0x7F .bit7A Regs.a

/-! Rules over all instructions. -/

/-- R30: which instructions write which flag, and that `Z` alone is read, by the branch alone. -/
def Obligations.FlagTable : Prop :=
  (∀ (i : Instr) (s t : State), exec i s = .next t →
    (i = .xorA → t.flags = { z := true, n := false, h := false, c := false }) ∧
    (∀ r v, testedRegister i = some r → s.readReg8 r = .ok v →
      t.flags = { z := !v.getLsbD 7, n := false, h := true, c := s.flags.c }) ∧
    (i ≠ .xorA → testedRegister i = none → t.flags = s.flags)) ∧
  (∀ (i : Instr) (s : State) (flags : Flags), flags.z = s.flags.z ∨ (∀ e8, i ≠ .jrNZ e8) →
    sameOutcome (fun t t' => t' = { t with flags := t'.flags }) (exec i s) (exec i { s with flags := flags }))

/-- R124: what an instruction's rule does not list as written is unchanged, for all 22 instructions. The byte registers
written are those of `destinations`, `sp` is written by `LD SP,d16`, the flags by `XOR A` (all) and `BIT` (`Z N H`), memory
at `storeAddress` alone. -/
def Obligations.WhatIsNotListedIsUnchanged : Prop :=
  ∀ (i : Instr) (s t : State), exec i s = .next t →
    (∀ r, r ∈ byteRegisters → r ∉ destinations i → t.readReg8 r = s.readReg8 r) ∧
    ((∀ d16, i ≠ .ldSP d16) → t.sp = s.sp) ∧
    (i ≠ .xorA → testedRegister i = none → t.flags = s.flags) ∧
    (i ≠ .xorA → t.flags.c = s.flags.c) ∧
    t.faultRecord = s.faultRecord ∧
    (storeAddress i s = none → ∀ b, t.readU8 b = s.readU8 b) ∧
    (∀ a, storeAddress i s = some a → ∀ b, b ≠ a → t.readU8 b = s.readU8 b)

/-- From R34, R56 and R71: the one opcode that changes memory is `LD (HL-),A`, since `LD (C),A` reaches no stored byte. -/
def Obligations.OnlyStoreAndDecrementChangesMemory : Prop :=
  ∀ s t : State, step s = .next t → s.readU8 s.pc ≠ .ok 0x32 → t.ram = s.ram ∧ t.vram = s.vram

/-- From R64 and R34: a step reads no memory but the bytes of its own instruction; no step reads beyond three bytes. -/
def Obligations.StepReadsOnlyItsOwnBytes : Prop :=
  (∀ (s s' : State) (op : Byte) (i : Instr), s' = { s with ram := s'.ram, vram := s'.vram } →
    fetch s = .ok { opcode := op, instr := i } →
    (∀ k : Nat, k < i.length → s'.readU8 (s.pc + BitVec.ofNat 16 k) = s.readU8 (s.pc + BitVec.ofNat 16 k)) →
    sameOutcome (fun t t' => t' = { t with ram := t'.ram, vram := t'.vram }) (step s) (step s')) ∧
  (∀ (s s' : State), s' = { s with ram := s'.ram, vram := s'.vram } →
    (∀ k : Nat, k < 3 → s'.readU8 (s.pc + BitVec.ofNat 16 k) = s.readU8 (s.pc + BitVec.ofNat 16 k)) →
    sameOutcome (fun t t' => t' = { t with ram := t'.ram, vram := t'.vram }) (step s) (step s'))

/-- R188 (an inference the spec marks as its own): every step and every request keeps `N` and `C` at 0. -/
def Obligations.SubtractAndCarryStayZero : Prop :=
  (∀ s t : State, s.FlagInv → step s = .next t → t.FlagInv) ∧
  (∀ (q : HostRequest) (s : State), s.FlagInv → (serve q s).2.FlagInv)

/-- R68 (an inference the spec marks as its own): a store to the byte after it is what the next step fetches and decodes. -/
def Obligations.NextFetchSeesTheStore : Prop :=
  ∀ s : State, s.MemoryInv → s.faultRecord = none → s.readU8 s.pc = .ok 0x32 → s.regs.hl = s.pc + 1 →
    (region s.regs.hl = .ram ∨ region s.regs.hl = .vram) →
    ∃ t, step s = .next t ∧ t.readU8 t.pc = .ok s.regs.a ∧
      (∀ i, decode [s.regs.a] = .instr i [] → step t = exec i t) ∧
      (s.regs.a ∉ assignedFirstBytes → step t = .fault (.unknownOpcode s.regs.a t.pc))

/-- R161: the branch after `XOR A`, after each `BIT 7,r`, and after reset. -/
def Obligations.BranchFollowsTheLastFlagWriter : Prop :=
  (∀ (s t : State) (e8 : Byte), exec .xorA s = .next t → exec (.jrNZ e8) t = .next { t with pc := t.pc + 2 }) ∧
  (∀ (i : Instr) (r : RegName) (v e8 : Byte) (s t : State), testedRegister i = some r → s.readReg8 r = .ok v →
    exec i s = .next t →
    (v.getLsbD 7 = true → exec (.jrNZ e8) t = .next { t with pc := BitVec.ofInt 16 (t.pc.toNat + 2 + e8.toInt) }) ∧
    (v.getLsbD 7 = false → exec (.jrNZ e8) t = .next { t with pc := t.pc + 2 })) ∧
  (∀ (image : List Byte) (t : State) (e8 : Byte), ifReset image = .next t →
    t.flags.z = false ∧ exec (.jrNZ e8) t = .next { t with pc := BitVec.ofInt 16 (2 + e8.toInt) })

/-- A corner case of R185: after `BIT 7,H`, `Z` is 0 exactly when `HL` is 0x8000 or more. -/
def Obligations.BitTestOfHComparesWithVramBase : Prop :=
  ∀ s t : State, exec .bit7H s = .next t → (t.flags.z = false ↔ 0x8000 ≤ s.regs.hl.toNat)

/-- R152: a 16-bit load and an 8-bit load of one half, in either order, and the last of two loads; no load faults or reads a
register or flag. -/
def Obligations.LoadsCombineByHalves : Prop :=
  ∀ (s : State) (w w' : Word) (v : Byte) (pair : Word → Instr) (high low : Byte → Instr) (get : Regs → Word),
    (pair, high, low, get) ∈ [(Instr.ldBC, Instr.ldB, Instr.ldC, Regs.bc), (.ldDE, .ldD, .ldE, Regs.de), (.ldHL, .ldH, .ldL, Regs.hl)] →
    ∃ t t' th tl u, exec (pair w) s = .next t ∧ get t.regs = w ∧
      exec (pair w') t = .next t' ∧ get t'.regs = w' ∧
      exec (high v) t = .next th ∧ get th.regs = BitVec.ofNat 16 (v.toNat * 256 + w.toNat % 256) ∧
      exec (low v) t = .next tl ∧ get tl.regs = BitVec.ofNat 16 (w.toNat / 256 * 256 + v.toNat) ∧
      exec (pair w) th = .next u ∧ get u.regs = w

/-- R14 (decision D21): adding the sign-extended offset is adding the signed number, modulo 65536. -/
def Obligations.SignedAdditionWraps : Prop :=
  ∀ (a : Word) (v : Byte), a + sext16 v = BitVec.ofInt 16 (a.toNat + v.toInt)

/-- R58: the class of a video RAM write, by its offset and by its bus address. -/
def Obligations.VideoRamWritesAreClassified : Prop :=
  ∀ a : Word,
    (vramLabel a = some .characterRam ↔ 0x8000 ≤ a.toNat ∧ a.toNat ≤ 0x97FF) ∧
    (vramLabel a = some .bgMapData1 ↔ 0x9800 ≤ a.toNat ∧ a.toNat ≤ 0x9BFF) ∧
    (vramLabel a = some .bgMapData2 ↔ 0x9C00 ≤ a.toNat ∧ a.toNat ≤ 0x9FFF) ∧
    (∀ offset : Nat, (vramOffsetLabel offset = some .characterRam ↔ offset ≤ 0x17FF) ∧
      (vramOffsetLabel offset = some .bgMapData1 ↔ 0x1800 ≤ offset ∧ offset ≤ 0x1BFF) ∧
      (vramOffsetLabel offset = some .bgMapData2 ↔ 0x1C00 ≤ offset ∧ offset ≤ 0x1FFF))

/-- From R59 (boundaries by decision D22): no label applies in RAM, and outside it each label names its own addresses. -/
def Obligations.RangeLabelsNameAddressesOutsideRam : Prop :=
  ∀ a : Word,
    (rangeLabel a = none ↔ a.toNat ≤ 0x1FFF) ∧
    rangeLabel a ≠ some .restartInterruptVectors ∧ rangeLabel a ≠ some .cartridgeHeader ∧
    (rangeLabel a = some .cartridgeRomBank0 ↔ 0x2000 ≤ a.toNat ∧ a.toNat ≤ 0x3FFF) ∧
    (rangeLabel a = some .cartridgeRomSwitchable ↔ 0x4000 ≤ a.toNat ∧ a.toNat ≤ 0x7FFF) ∧
    (rangeLabel a = some .videoRam ↔ 0x8000 ≤ a.toNat ∧ a.toNat ≤ 0x9FFF) ∧
    (rangeLabel a = some .cartridgeRamBank ↔ 0xA000 ≤ a.toNat ∧ a.toNat ≤ 0xBFFF) ∧
    (rangeLabel a = some .internalRamBank0 ↔ 0xC000 ≤ a.toNat ∧ a.toNat ≤ 0xCFFF) ∧
    (rangeLabel a = some .internalRamBanks1to7 ↔ 0xD000 ≤ a.toNat ∧ a.toNat ≤ 0xDFFF) ∧
    (rangeLabel a = some .echoRam ↔ 0xE000 ≤ a.toNat ∧ a.toNat ≤ 0xFDFF) ∧
    (rangeLabel a = some .oam ↔ 0xFE00 ≤ a.toNat ∧ a.toNat ≤ 0xFE9F) ∧
    (rangeLabel a = some .unusable ↔ 0xFEA0 ≤ a.toNat ∧ a.toNat ≤ 0xFEFF) ∧
    (rangeLabel a = some .hardwareIo ↔ 0xFF00 ≤ a.toNat ∧ a.toNat ≤ 0xFF7F) ∧
    (rangeLabel a = some .zeroPage ↔ 0xFF80 ≤ a.toNat ∧ a.toNat ≤ 0xFFFE) ∧
    (rangeLabel a = some .interruptEnable ↔ a.toNat = 0xFFFF)
end

