-- ==== Sys2Proof/Laws/Memory.lean ====
section
/-! SUPPORT. The laws of the byte arrays: read after write, the canonical form, and that it makes equal arrays equal data. -/

namespace Sys2Proof.Machine

theorem Memory.mem_entry {k : Nat} {v : Byte} {m : Memory} {x : Host.Cell} (h : x ∈ Memory.entry k v m) :
    (x = (k, v) ∧ v ≠ Memory.unlisted) ∨ x ∈ m := by
  unfold Memory.entry at h
  split at h
  · exact .inr h
  · rcases List.mem_cons.1 h with rfl | h
    · exact .inl ⟨rfl, ‹_›⟩
    · exact .inr h

theorem Memory.read_of_all_gt {m : Memory} {k : Nat} (h : ∀ x ∈ m, k < x.1) : m.read k = Memory.unlisted := by
  induction m with
  | nil => rfl
  | cons x m ih =>
    have hk : k ≠ x.1 := Nat.ne_of_lt (h x (by simp))
    simp only [Memory.read, hk, if_false]
    exact ih fun y hy => h y (by simp [hy])

theorem Memory.read_entry_same {k : Nat} {v : Byte} {m : Memory} (h : ∀ x ∈ m, k < x.1) :
    (Memory.entry k v m).read k = v := by
  unfold Memory.entry
  split
  · rw [Memory.read_of_all_gt h]; exact Eq.symm ‹_›
  · simp [Memory.read]

theorem Memory.read_entry_other {k j : Nat} {v : Byte} {m : Memory} (h : j ≠ k) :
    (Memory.entry k v m).read j = m.read j := by
  unfold Memory.entry
  split <;> simp [Memory.read, h]

theorem Memory.entry_wf {k : Nat} {v : Byte} {m : Memory} (hm : m.wf) (h : ∀ x ∈ m, k < x.1) :
    (Memory.entry k v m).wf := by
  unfold Memory.entry
  split
  · exact hm
  · refine ⟨List.pairwise_cons.2 ⟨h, hm.1⟩, fun x hx => ?_⟩
    rcases List.mem_cons.1 hx with rfl | hx
    · assumption
    · exact hm.2 x hx

theorem Memory.wf_tail {x : Host.Cell} {m : Memory} (h : Memory.wf (x :: m)) : m.wf ∧ ∀ y ∈ m, x.1 < y.1 := by
  obtain ⟨h1, h2⟩ := h
  rw [List.pairwise_cons] at h1
  exact ⟨⟨h1.2, fun y hy => h2 y (by simp [hy])⟩, h1.1⟩

/-- Every cell after a write is the written one or was there before. -/
theorem Memory.mem_write {m : Memory} {k : Nat} {v : Byte} {x : Host.Cell} (h : x ∈ m.write k v) :
    (x = (k, v) ∧ v ≠ Memory.unlisted) ∨ x ∈ m := by
  induction m with
  | nil => exact Memory.mem_entry h
  | cons y m ih =>
    obtain ⟨i, w⟩ := y
    simp only [Memory.write] at h
    split at h
    · exact Memory.mem_entry h
    · split at h
      · exact (Memory.mem_entry h).imp_right fun h => by simp [h]
      · rcases List.mem_cons.1 h with rfl | h
        · exact .inr (by simp)
        · exact (ih h).imp_right fun h => by simp [h]

theorem Memory.read_write_same {m : Memory} (hm : m.wf) (k : Nat) (v : Byte) : (m.write k v).read k = v := by
  induction m with
  | nil => exact Memory.read_entry_same (by simp)
  | cons x m ih =>
    obtain ⟨i, w⟩ := x
    obtain ⟨hm', hlt⟩ := Memory.wf_tail hm
    simp only [Memory.write]
    split
    · refine Memory.read_entry_same fun y hy => ?_
      rcases List.mem_cons.1 hy with rfl | hy
      · assumption
      · exact Nat.lt_trans ‹k < i› (hlt y hy)
    · split
      · subst k; exact Memory.read_entry_same hlt
      · simp only [Memory.read, ‹¬ k = i›, if_false]; exact ih hm'

theorem Memory.read_write_other (m : Memory) {k j : Nat} (v : Byte) (h : j ≠ k) : (m.write k v).read j = m.read j := by
  induction m with
  | nil => exact Memory.read_entry_other h
  | cons x m ih =>
    obtain ⟨i, w⟩ := x
    simp only [Memory.write]
    split
    · exact Memory.read_entry_other h
    · split
      · subst k; rw [Memory.read_entry_other h]; simp [Memory.read, h]
      · simp only [Memory.read, ih]

theorem Memory.write_wf {m : Memory} (hm : m.wf) (k : Nat) (v : Byte) : (m.write k v).wf := by
  induction m with
  | nil => exact Memory.entry_wf hm (by simp)
  | cons x m ih =>
    obtain ⟨i, w⟩ := x
    obtain ⟨hm', hlt⟩ := Memory.wf_tail hm
    simp only [Memory.write]
    split
    · refine Memory.entry_wf hm fun y hy => ?_
      rcases List.mem_cons.1 hy with rfl | hy
      · assumption
      · exact Nat.lt_trans ‹k < i› (hlt y hy)
    · split
      · subst k; exact Memory.entry_wf hm' hlt
      · refine ⟨List.pairwise_cons.2 ⟨fun y hy => ?_, (ih hm').1⟩, fun y hy => ?_⟩
        · rcases Memory.mem_write hy with ⟨rfl, _⟩ | hy
          · have := ‹¬ k < i›
            have := ‹¬ k = i›
            show i < k
            omega
          · exact hlt y hy
        · rcases List.mem_cons.1 hy with rfl | hy
          · exact hm.2 _ (by simp)
          · exact (ih hm').2 y hy

theorem Memory.write_within {m : Memory} {size k : Nat} (hm : m.within size) (hk : k < size) (v : Byte) :
    (m.write k v).within size := fun x hx => by
  rcases Memory.mem_write hx with ⟨rfl, _⟩ | hx
  · exact hk
  · exact hm x hx

theorem Memory.mem_load {bytes : List Byte} {k : Nat} {x : Host.Cell} (h : x ∈ Memory.load k bytes) :
    k ≤ x.1 ∧ x.1 < k + bytes.length := by
  induction bytes generalizing k with
  | nil => simp [Memory.load] at h
  | cons v bytes ih =>
    rcases Memory.mem_entry h with ⟨rfl, _⟩ | h
    · simp
    · have := ih h
      simp only [List.length_cons]
      omega

theorem Memory.load_wf (k : Nat) (bytes : List Byte) : (Memory.load k bytes).wf := by
  induction bytes generalizing k with
  | nil => simp [Memory.load, Memory.wf]
  | cons v bytes ih => exact Memory.entry_wf (ih _) fun x hx => (Memory.mem_load hx).1

theorem Memory.read_load {bytes : List Byte} (k i : Nat) (h : i < bytes.length) :
    (Memory.load k bytes).read (k + i) = bytes[i] := by
  induction bytes generalizing k i with
  | nil => simp at h
  | cons v bytes ih =>
    cases i with
    | zero => exact Memory.read_entry_same fun x hx => (Memory.mem_load hx).1
    | succ i =>
      rw [Memory.load, Memory.read_entry_other (by omega)]
      simpa [Nat.add_comm, Nat.add_left_comm] using ih (k + 1) i (by simpa using h)

theorem Memory.read_load_outside {bytes : List Byte} (k i : Nat) (h : i < k ∨ k + bytes.length ≤ i) :
    (Memory.load k bytes).read i = Memory.unlisted := by
  induction bytes generalizing k with
  | nil => rfl
  | cons v bytes ih =>
    simp only [List.length_cons] at h
    rw [Memory.load, Memory.read_entry_other (by omega)]
    exact ih (k + 1) (by omega)

/-- Canonical arrays that read alike everywhere are equal lists. -/
theorem Memory.ext_of_read {m m' : Memory} (hm : m.wf) (hm' : m'.wf) (h : ∀ k, m.read k = m'.read k) : m = m' := by
  induction m generalizing m' with
  | nil =>
    cases m' with
    | nil => rfl
    | cons y m' =>
      have := h y.1
      simp only [Memory.read, if_true] at this
      exact absurd this.symm (hm'.2 y (by simp))
  | cons x m ih =>
    obtain ⟨hmt, hlt⟩ := Memory.wf_tail hm
    cases m' with
    | nil =>
      have := h x.1
      simp only [Memory.read, if_true] at this
      exact absurd this (hm.2 x (by simp))
    | cons y m' =>
      obtain ⟨hmt', hlt'⟩ := Memory.wf_tail hm'
      obtain ⟨i, v⟩ := x
      obtain ⟨j, w⟩ := y
      have hij : i = j := by
        by_contra hne
        rcases Nat.lt_or_gt_of_ne hne with hlt1 | hlt1
        · have h1 := h i
          simp only [Memory.read, if_true, hne, if_false] at h1
          rw [Memory.read_of_all_gt fun z hz => Nat.lt_trans hlt1 (hlt' z hz)] at h1
          exact hm.2 (i, v) (by simp) h1
        · have h1 := h j
          simp only [Memory.read, if_true, Ne.symm hne, if_false] at h1
          rw [Memory.read_of_all_gt fun z hz => Nat.lt_trans hlt1 (hlt z hz)] at h1
          exact hm'.2 (j, w) (by simp) h1.symm
      subst hij
      have hv : v = w := by simpa [Memory.read] using h i
      subst hv
      rw [ih hmt hmt' fun k => ?_]
      by_cases hk : k = i
      · subst hk; rw [Memory.read_of_all_gt hlt, Memory.read_of_all_gt hlt']
      · simpa [Memory.read, hk] using h k

end Sys2Proof.Machine
end

