-- ==== Sys2Proof/Laws/State.lean ====
section
/-! SUPPORT. One lemma per field per update of the state, each true by definition, and the same for the pair writes. -/

namespace Sys2Proof.Machine

variable (s : State)

@[simp] theorem State.setRegs_regs (v : Regs) : (s.setRegs v).regs = v := rfl
@[simp] theorem State.setRegs_sp (v : Regs) : (s.setRegs v).sp = s.sp := rfl
@[simp] theorem State.setRegs_pc (v : Regs) : (s.setRegs v).pc = s.pc := rfl
@[simp] theorem State.setRegs_flags (v : Regs) : (s.setRegs v).flags = s.flags := rfl
@[simp] theorem State.setRegs_ram (v : Regs) : (s.setRegs v).ram = s.ram := rfl
@[simp] theorem State.setRegs_vram (v : Regs) : (s.setRegs v).vram = s.vram := rfl
@[simp] theorem State.setRegs_faultRecord (v : Regs) : (s.setRegs v).faultRecord = s.faultRecord := rfl

@[simp] theorem State.setSp_regs (v : Word) : (s.setSp v).regs = s.regs := rfl
@[simp] theorem State.setSp_sp (v : Word) : (s.setSp v).sp = v := rfl
@[simp] theorem State.setSp_pc (v : Word) : (s.setSp v).pc = s.pc := rfl
@[simp] theorem State.setSp_flags (v : Word) : (s.setSp v).flags = s.flags := rfl
@[simp] theorem State.setSp_ram (v : Word) : (s.setSp v).ram = s.ram := rfl
@[simp] theorem State.setSp_vram (v : Word) : (s.setSp v).vram = s.vram := rfl
@[simp] theorem State.setSp_faultRecord (v : Word) : (s.setSp v).faultRecord = s.faultRecord := rfl

@[simp] theorem State.setPc_regs (v : Word) : (s.setPc v).regs = s.regs := rfl
@[simp] theorem State.setPc_sp (v : Word) : (s.setPc v).sp = s.sp := rfl
@[simp] theorem State.setPc_pc (v : Word) : (s.setPc v).pc = v := rfl
@[simp] theorem State.setPc_flags (v : Word) : (s.setPc v).flags = s.flags := rfl
@[simp] theorem State.setPc_ram (v : Word) : (s.setPc v).ram = s.ram := rfl
@[simp] theorem State.setPc_vram (v : Word) : (s.setPc v).vram = s.vram := rfl
@[simp] theorem State.setPc_faultRecord (v : Word) : (s.setPc v).faultRecord = s.faultRecord := rfl

@[simp] theorem State.setFlags_regs (v : Flags) : (s.setFlags v).regs = s.regs := rfl
@[simp] theorem State.setFlags_sp (v : Flags) : (s.setFlags v).sp = s.sp := rfl
@[simp] theorem State.setFlags_pc (v : Flags) : (s.setFlags v).pc = s.pc := rfl
@[simp] theorem State.setFlags_flags (v : Flags) : (s.setFlags v).flags = v := rfl
@[simp] theorem State.setFlags_ram (v : Flags) : (s.setFlags v).ram = s.ram := rfl
@[simp] theorem State.setFlags_vram (v : Flags) : (s.setFlags v).vram = s.vram := rfl
@[simp] theorem State.setFlags_faultRecord (v : Flags) : (s.setFlags v).faultRecord = s.faultRecord := rfl

@[simp] theorem State.setRam_regs (v : Memory) : (s.setRam v).regs = s.regs := rfl
@[simp] theorem State.setRam_sp (v : Memory) : (s.setRam v).sp = s.sp := rfl
@[simp] theorem State.setRam_pc (v : Memory) : (s.setRam v).pc = s.pc := rfl
@[simp] theorem State.setRam_flags (v : Memory) : (s.setRam v).flags = s.flags := rfl
@[simp] theorem State.setRam_ram (v : Memory) : (s.setRam v).ram = v := rfl
@[simp] theorem State.setRam_vram (v : Memory) : (s.setRam v).vram = s.vram := rfl
@[simp] theorem State.setRam_faultRecord (v : Memory) : (s.setRam v).faultRecord = s.faultRecord := rfl

@[simp] theorem State.setVram_regs (v : Memory) : (s.setVram v).regs = s.regs := rfl
@[simp] theorem State.setVram_sp (v : Memory) : (s.setVram v).sp = s.sp := rfl
@[simp] theorem State.setVram_pc (v : Memory) : (s.setVram v).pc = s.pc := rfl
@[simp] theorem State.setVram_flags (v : Memory) : (s.setVram v).flags = s.flags := rfl
@[simp] theorem State.setVram_ram (v : Memory) : (s.setVram v).ram = s.ram := rfl
@[simp] theorem State.setVram_vram (v : Memory) : (s.setVram v).vram = v := rfl
@[simp] theorem State.setVram_faultRecord (v : Memory) : (s.setVram v).faultRecord = s.faultRecord := rfl

@[simp] theorem State.latchFault_regs (f : Fault) : (s.latchFault f).regs = s.regs := rfl
@[simp] theorem State.latchFault_sp (f : Fault) : (s.latchFault f).sp = s.sp := rfl
@[simp] theorem State.latchFault_pc (f : Fault) : (s.latchFault f).pc = s.pc := rfl
@[simp] theorem State.latchFault_flags (f : Fault) : (s.latchFault f).flags = s.flags := rfl
@[simp] theorem State.latchFault_ram (f : Fault) : (s.latchFault f).ram = s.ram := rfl
@[simp] theorem State.latchFault_vram (f : Fault) : (s.latchFault f).vram = s.vram := rfl
@[simp] theorem State.latchFault_faultRecord (f : Fault) : (s.latchFault f).faultRecord = some f := rfl

@[simp] theorem State.clearFault_regs : s.clearFault.regs = s.regs := rfl
@[simp] theorem State.clearFault_sp : s.clearFault.sp = s.sp := rfl
@[simp] theorem State.clearFault_pc : s.clearFault.pc = s.pc := rfl
@[simp] theorem State.clearFault_flags : s.clearFault.flags = s.flags := rfl
@[simp] theorem State.clearFault_ram : s.clearFault.ram = s.ram := rfl
@[simp] theorem State.clearFault_vram : s.clearFault.vram = s.vram := rfl
@[simp] theorem State.clearFault_faultRecord : s.clearFault.faultRecord = none := rfl

variable (r : Regs) (w : Word)

@[simp] theorem Regs.setBC_a : (r.setBC w).a = r.a := rfl
@[simp] theorem Regs.setBC_b : (r.setBC w).b = highByte w := rfl
@[simp] theorem Regs.setBC_c : (r.setBC w).c = lowByte w := rfl
@[simp] theorem Regs.setBC_d : (r.setBC w).d = r.d := rfl
@[simp] theorem Regs.setBC_e : (r.setBC w).e = r.e := rfl
@[simp] theorem Regs.setBC_h : (r.setBC w).h = r.h := rfl
@[simp] theorem Regs.setBC_l : (r.setBC w).l = r.l := rfl

@[simp] theorem Regs.setDE_a : (r.setDE w).a = r.a := rfl
@[simp] theorem Regs.setDE_b : (r.setDE w).b = r.b := rfl
@[simp] theorem Regs.setDE_c : (r.setDE w).c = r.c := rfl
@[simp] theorem Regs.setDE_d : (r.setDE w).d = highByte w := rfl
@[simp] theorem Regs.setDE_e : (r.setDE w).e = lowByte w := rfl
@[simp] theorem Regs.setDE_h : (r.setDE w).h = r.h := rfl
@[simp] theorem Regs.setDE_l : (r.setDE w).l = r.l := rfl

@[simp] theorem Regs.setHL_a : (r.setHL w).a = r.a := rfl
@[simp] theorem Regs.setHL_b : (r.setHL w).b = r.b := rfl
@[simp] theorem Regs.setHL_c : (r.setHL w).c = r.c := rfl
@[simp] theorem Regs.setHL_d : (r.setHL w).d = r.d := rfl
@[simp] theorem Regs.setHL_e : (r.setHL w).e = r.e := rfl
@[simp] theorem Regs.setHL_h : (r.setHL w).h = highByte w := rfl
@[simp] theorem Regs.setHL_l : (r.setHL w).l = lowByte w := rfl

end Sys2Proof.Machine
end

