-- ==== Sys2Proof/Laws/Bus.lean ====
section
/-! SUPPORT. What the bus operations can do, said once: the regions as address ranges, each operation by region, read after
write, and that a write keeps the canonical form. -/

namespace Sys2Proof.Machine

theorem region_eq_ram {a : Word} : region a = .ram ↔ a.toNat < 8192 := by
  unfold region
  (repeat' split) <;> simp only [true_iff, reduceCtorEq, false_iff] <;> simp only [Config.ramBase, Config.ramSize,
    Config.vramBase, Config.vramSize, Config.ioLo, Config.ioHi] at * <;> omega

theorem region_eq_vram {a : Word} : region a = .vram ↔ 0x8000 ≤ a.toNat ∧ a.toNat < 0xA000 := by
  unfold region
  (repeat' split) <;> simp only [true_iff, reduceCtorEq, false_iff] <;> simp only [Config.ramBase, Config.ramSize,
    Config.vramBase, Config.vramSize, Config.ioLo, Config.ioHi] at * <;> omega

theorem region_eq_io {a : Word} : region a = .io ↔ 0xFF00 ≤ a.toNat ∧ a.toNat ≤ 0xFF7F := by
  unfold region
  (repeat' split) <;> simp only [true_iff, reduceCtorEq, false_iff] <;> simp only [Config.ramBase, Config.ramSize,
    Config.vramBase, Config.vramSize, Config.ioLo, Config.ioHi] at * <;> omega

theorem region_eq_unimplemented {a : Word} : region a = .unimplemented ↔
    (0x2000 ≤ a.toNat ∧ a.toNat ≤ 0x7FFF) ∨ (0xA000 ≤ a.toNat ∧ a.toNat ≤ 0xFEFF) ∨ 0xFF80 ≤ a.toNat := by
  unfold region
  (repeat' split) <;> simp only [true_iff, reduceCtorEq, false_iff] <;> simp only [Config.ramBase, Config.ramSize,
    Config.vramBase, Config.vramSize, Config.ioLo, Config.ioHi] at * <;> omega

theorem ramIndex_eq (a : Word) : ramIndex a = a.toNat := by simp [ramIndex]
theorem vramIndex_eq (a : Word) : vramIndex a = a.toNat - 0x8000 := rfl

variable {s t : State} {a : Word} {v : Byte} {f : Fault}

theorem readU8_ram (h : region a = .ram) : s.readU8 a = .ok (s.ram.read (ramIndex a)) := by simp [State.readU8, h]
theorem readU8_vram (h : region a = .vram) : s.readU8 a = .ok (s.vram.read (vramIndex a)) := by simp [State.readU8, h]

/-- A read that succeeds is of RAM or VRAM. -/
theorem readU8_ok (h : s.readU8 a = .ok v) :
    (region a = .ram ∧ v = s.ram.read (ramIndex a)) ∨ (region a = .vram ∧ v = s.vram.read (vramIndex a)) := by
  unfold State.readU8 at h
  split at h <;> simp_all

/-- A read that faults is of an address outside both, and names that address. -/
theorem readU8_error (h : s.readU8 a = .error f) :
    f = .unimplementedMemoryRegion a .read ∧ region a ≠ .ram ∧ region a ≠ .vram := by
  unfold State.readU8 at h
  split at h <;> simp_all

/-- A read depends on the two arrays and the address alone. -/
theorem readU8_congr (hr : s.ram = t.ram) (hv : s.vram = t.vram) (a : Word) : s.readU8 a = t.readU8 a := by
  simp [State.readU8, hr, hv]

/-- Whether an address can be read does not depend on the state. -/
theorem readU8_error_iff : s.readU8 a = .error f ↔ t.readU8 a = .error f := by
  unfold State.readU8
  split <;> simp

/-- All a write that succeeds can do. -/
theorem writeU8_ok (h : s.writeU8 a v = .ok t) :
    (region a = .ram ∧ t = s.setRam (s.ram.write (ramIndex a) v)) ∨
    (region a = .vram ∧ t = s.setVram (s.vram.write (vramIndex a) v)) ∨ (region a = .io ∧ t = s) := by
  unfold State.writeU8 at h
  split at h <;> simp_all

/-- A write that faults is of an unimplemented address, and names it. -/
theorem writeU8_error (h : s.writeU8 a v = .error f) :
    region a = .unimplemented ∧ f = .unimplementedMemoryRegion a .write := by
  unfold State.writeU8 at h
  split at h <;> simp_all

theorem writeU8_of_unimplemented (h : region a = .unimplemented) :
    s.writeU8 a v = .error (.unimplementedMemoryRegion a .write) := by simp [State.writeU8, h]

/-- A write changes the two arrays alone. -/
theorem writeU8_frame (h : s.writeU8 a v = .ok t) : t = { s with ram := t.ram, vram := t.vram } := by
  rcases writeU8_ok h with ⟨_, rfl⟩ | ⟨_, rfl⟩ | ⟨_, rfl⟩ <;> rfl

theorem readU8_writeU8_other {b : Word} (h : s.writeU8 a v = .ok t) (hb : b ≠ a) : t.readU8 b = s.readU8 b := by
  have hne : b.toNat ≠ a.toNat := fun h => hb (BitVec.eq_of_toNat_eq h)
  rcases writeU8_ok h with ⟨ha, rfl⟩ | ⟨ha, rfl⟩ | ⟨_, rfl⟩
  · unfold State.readU8
    split <;> try rfl
    rename_i hr
    simp only [State.setRam_ram]
    rw [Memory.read_write_other]
    simpa only [ramIndex_eq]
  · unfold State.readU8
    split <;> try rfl
    rename_i hr
    simp only [State.setVram_vram]
    rw [Memory.read_write_other]
    have := region_eq_vram.1 ha
    have := region_eq_vram.1 hr
    simp only [vramIndex_eq]
    omega
  · rfl

theorem readU8_writeU8_same (hi : s.MemoryInv) (h : s.writeU8 a v = .ok t) (ha : region a ≠ .io) :
    t.readU8 a = .ok v := by
  rcases writeU8_ok h with ⟨hr, rfl⟩ | ⟨hr, rfl⟩ | ⟨hr, _⟩
  · rw [readU8_ram hr]; simp [Memory.read_write_same hi.1]
  · rw [readU8_vram hr]; simp [Memory.read_write_same hi.2.1]
  · exact absurd hr ha

/-- A write keeps both arrays canonical and inside their sizes. -/
theorem writeU8_memoryInv (hi : s.MemoryInv) (h : s.writeU8 a v = .ok t) : t.MemoryInv := by
  obtain ⟨h1, h2, h3, h4⟩ := hi
  rcases writeU8_ok h with ⟨hr, rfl⟩ | ⟨hr, rfl⟩ | ⟨_, rfl⟩
  · refine ⟨Memory.write_wf h1 _ _, h2, Memory.write_within h3 ?_ _, h4⟩
    have := region_eq_ram.1 hr
    simpa only [ramIndex_eq]
  · refine ⟨h1, Memory.write_wf h2 _ _, h3, Memory.write_within h4 ?_ _⟩
    have := region_eq_vram.1 hr
    simp only [vramIndex_eq, Config.vramSize]
    omega
  · exact ⟨h1, h2, h3, h4⟩

/-- `read_u16` is the two byte reads, the high byte's first. -/
theorem readU16_ok {w : Word} (h : s.readU16 a = .ok w) :
    ∃ hi lo, s.readU8 (a + 1) = .ok hi ∧ s.readU8 a = .ok lo ∧ w = leWord lo hi := by
  unfold State.readU16 at h
  cases hh : s.readU8 (a + 1) <;> cases hl : s.readU8 a <;> simp_all [bind, Except.bind, pure, Except.pure]

theorem readU16_error (h : s.readU16 a = .error f) :
    s.readU8 (a + 1) = .error f ∨ ((∃ hi, s.readU8 (a + 1) = .ok hi) ∧ s.readU8 a = .error f) := by
  unfold State.readU16 at h
  cases hh : s.readU8 (a + 1) <;> cases hl : s.readU8 a <;> simp_all [bind, Except.bind, pure, Except.pure]

theorem reset_memoryInv : State.reset.MemoryInv := by
  simp [State.MemoryInv, State.reset, Memory.wf, Memory.within]

end Sys2Proof.Machine
end

