-- ==== Sys2Proof/Laws/Decode.lean ====
section
/-! SUPPORT. The opcode tables row by row, the unassigned bytes, and the halves of a 16-bit immediate. -/

namespace Sys2Proof

theorem concat_toNat (high low : Byte) : (concat high low).toNat = high.toNat * 256 + low.toNat := by
  have hh := high.isLt
  have hl := low.isLt
  simp only [concat, BitVec.toNat_or, BitVec.toNat_shiftLeft, BitVec.toNat_setWidth]
  rw [Nat.mod_eq_of_lt (show high.toNat < 2 ^ 16 by omega), Nat.mod_eq_of_lt (show low.toNat < 2 ^ 16 by omega),
    Nat.mod_eq_of_lt (by rw [Nat.shiftLeft_eq]; omega),
    ← Nat.shiftLeft_add_eq_or_of_lt (show low.toNat < 2 ^ 8 by omega), Nat.shiftLeft_eq]

theorem lowByte_toNat (w : Word) : (lowByte w).toNat = w.toNat % 256 := by
  simp [lowByte, BitVec.extractLsb'_toNat]

theorem highByte_toNat (w : Word) : (highByte w).toNat = w.toNat / 256 := by
  have := w.isLt
  simp only [highByte, BitVec.extractLsb'_toNat, Nat.shiftRight_eq_div_pow]
  omega

@[simp] theorem concat_high_low (w : Word) : concat (highByte w) (lowByte w) = w := by
  apply BitVec.eq_of_toNat_eq
  rw [concat_toNat, highByte_toNat, lowByte_toNat]
  omega

@[simp] theorem lowByte_concat (high low : Byte) : lowByte (concat high low) = low := by
  apply BitVec.eq_of_toNat_eq
  have := low.isLt
  rw [lowByte_toNat, concat_toNat]
  omega

@[simp] theorem highByte_concat (high low : Byte) : highByte (concat high low) = high := by
  apply BitVec.eq_of_toNat_eq
  have := low.isLt
  rw [highByte_toNat, concat_toNat]
  omega

/-- Concatenation as the number `high * 256 + low` (R13). -/
theorem concat_eq_ofNat (high low : Byte) : concat high low = BitVec.ofNat 16 (high.toNat * 256 + low.toNat) := by
  rw [← concat_toNat, BitVec.ofNat_toNat, BitVec.setWidth_eq]

theorem lowByte_eq_ofNat (w : Word) : lowByte w = BitVec.ofNat 8 w.toNat := by
  apply BitVec.eq_of_toNat_eq
  rw [lowByte_toNat, BitVec.toNat_ofNat]

theorem highByte_eq_ofNat (w : Word) : highByte w = BitVec.ofNat 8 (w.toNat / 256) := by
  apply BitVec.eq_of_toNat_eq
  have := w.isLt
  rw [highByte_toNat, BitVec.toNat_ofNat]
  omega

theorem decode_cons (byte0 : Byte) (rest : List Byte) : decode (byte0 :: rest) = decodeRow byte0 (firstByteRow byte0) rest := rfl

/-- A first byte without a row is none of the sixteen of the table. -/
theorem firstByteRow_eq_none {byte0 : Byte} :
    firstByteRow byte0 = none ↔ byte0 ∉ firstByteTable.map Prod.fst := by
  simp only [firstByteRow, List.lookup_eq_none_iff, List.mem_map, not_exists, not_and]
  constructor
  · rintro h x hx rfl
    simpa using h x hx
  · intro h x hx
    simpa using fun hc => h x hx hc.symm

theorem extendedInstr_eq_none {byte1 : Byte} :
    extendedInstr byte1 = none ↔ byte1 ∉ extendedTable.map Prod.fst := by
  simp only [extendedInstr, List.lookup_eq_none_iff, List.mem_map, not_exists, not_and]
  constructor
  · rintro h x hx rfl
    simpa using h x hx
  · intro h x hx
    simpa using fun hc => h x hx hc.symm

/-- A row found is a row of the table. -/
theorem firstByteRow_mem {byte0 : Byte} {row : Row} (h : firstByteRow byte0 = some row) :
    (byte0, row) ∈ firstByteTable := by
  unfold firstByteRow at h
  obtain ⟨l1, l2, h1, _⟩ := List.lookup_eq_some_iff.1 h
  simp [h1]

theorem extendedInstr_mem {byte1 : Byte} {i : Instr} (h : extendedInstr byte1 = some i) :
    (byte1, i) ∈ extendedTable := by
  unfold extendedInstr at h
  obtain ⟨l1, l2, h1, _⟩ := List.lookup_eq_some_iff.1 h
  simp [h1]

@[simp] theorem firstByteRow_01 : firstByteRow 0x01#8 = some (.opD16 .ldBC) := rfl
@[simp] theorem firstByteRow_06 : firstByteRow 0x06#8 = some (.opD8 .ldB) := rfl
@[simp] theorem firstByteRow_0E : firstByteRow 0x0E#8 = some (.opD8 .ldC) := rfl
@[simp] theorem firstByteRow_11 : firstByteRow 0x11#8 = some (.opD16 .ldDE) := rfl
@[simp] theorem firstByteRow_16 : firstByteRow 0x16#8 = some (.opD8 .ldD) := rfl
@[simp] theorem firstByteRow_1E : firstByteRow 0x1E#8 = some (.opD8 .ldE) := rfl
@[simp] theorem firstByteRow_20 : firstByteRow 0x20#8 = some (.opE8 .jrNZ) := rfl
@[simp] theorem firstByteRow_21 : firstByteRow 0x21#8 = some (.opD16 .ldHL) := rfl
@[simp] theorem firstByteRow_26 : firstByteRow 0x26#8 = some (.opD8 .ldH) := rfl
@[simp] theorem firstByteRow_2E : firstByteRow 0x2E#8 = some (.opD8 .ldL) := rfl
@[simp] theorem firstByteRow_31 : firstByteRow 0x31#8 = some (.opD16 .ldSP) := rfl
@[simp] theorem firstByteRow_32 : firstByteRow 0x32#8 = some (.op .ldHLDecA) := rfl
@[simp] theorem firstByteRow_3E : firstByteRow 0x3E#8 = some (.opD8 .ldA) := rfl
@[simp] theorem firstByteRow_AF : firstByteRow 0xAF#8 = some (.op .xorA) := rfl
@[simp] theorem firstByteRow_CB : firstByteRow 0xCB#8 = some .cbXop := rfl
@[simp] theorem firstByteRow_E2 : firstByteRow 0xE2#8 = some (.op .ldHighCA) := rfl

@[simp] theorem extendedInstr_78 : extendedInstr 0x78#8 = some .bit7B := rfl
@[simp] theorem extendedInstr_79 : extendedInstr 0x79#8 = some .bit7C := rfl
@[simp] theorem extendedInstr_7A : extendedInstr 0x7A#8 = some .bit7D := rfl
@[simp] theorem extendedInstr_7B : extendedInstr 0x7B#8 = some .bit7E := rfl
@[simp] theorem extendedInstr_7C : extendedInstr 0x7C#8 = some .bit7H := rfl
@[simp] theorem extendedInstr_7D : extendedInstr 0x7D#8 = some .bit7L := rfl
@[simp] theorem extendedInstr_7F : extendedInstr 0x7F#8 = some .bit7A := rfl

/-- No first byte stands in two rows, and no extended opcode (R102: the tables are indexed without overlap). -/
theorem firstByteTable_nodup : (firstByteTable.map Prod.fst).Nodup := by decide

theorem extendedTable_nodup : (extendedTable.map Prod.fst).Nodup := by decide

end Sys2Proof
end

