-- ==== Sys2Proof/Laws/Regs.lean ====
section
/-! SUPPORT. What the register access primitives can do, said once, and the pairs as views of their halves. -/

namespace Sys2Proof.Machine

@[simp] theorem Regs.bc_setBC (r : Regs) (w : Word) : (r.setBC w).bc = w := by simp [Regs.bc]
@[simp] theorem Regs.de_setDE (r : Regs) (w : Word) : (r.setDE w).de = w := by simp [Regs.de]
@[simp] theorem Regs.hl_setHL (r : Regs) (w : Word) : (r.setHL w).hl = w := by simp [Regs.hl]

variable {s t : State} {r : RegName} {f : Fault}

/-- A width-8 write that succeeds changes the byte registers alone, and the one written reads back. -/
theorem writeReg8_ok {v : Byte} (h : s.writeReg8 r v = .ok t) :
    t = s.setRegs t.regs ∧ t.readReg8 r = .ok v ∧ ∀ r', r' ≠ r → t.readReg8 r' = s.readReg8 r' := by
  cases r <;> simp only [State.writeReg8, Except.ok.injEq, reduceCtorEq] at h <;> subst h <;>
    refine ⟨rfl, rfl, fun r' hr => ?_⟩ <;> cases r' <;> first | rfl | exact absurd rfl hr

/-- The two accesses at width 8 fault for the same names, with the same fault. -/
theorem readReg8_error (h : s.readReg8 r = .error f) : f = .invalidRegisterWidth r .w8 ∧ r.allows .w8 = false := by
  cases r <;> simp_all [State.readReg8, RegName.allows]

theorem writeReg8_error {v : Byte} (h : s.writeReg8 r v = .error f) :
    f = .invalidRegisterWidth r .w8 ∧ r.allows .w8 = false := by
  cases r <;> simp_all [State.writeReg8, RegName.allows]

/-- A width-16 write that succeeds changes the byte registers and `sp` alone, and what is written reads back. -/
theorem writeReg16_ok {w : Word} (h : s.writeReg16 r w = .ok t) :
    t = (s.setRegs t.regs).setSp t.sp ∧ t.readReg16 r = .ok w := by
  cases r <;> simp only [State.writeReg16, Except.ok.injEq, reduceCtorEq] at h <;> subst h <;>
    refine ⟨rfl, ?_⟩ <;> simp [State.readReg16]

theorem readReg16_error (h : s.readReg16 r = .error f) : f = .invalidRegisterWidth r .w16 ∧ r.allows .w16 = false := by
  cases r <;> simp_all [State.readReg16, RegName.allows]

theorem writeReg16_error {w : Word} (h : s.writeReg16 r w = .error f) :
    f = .invalidRegisterWidth r .w16 ∧ r.allows .w16 = false := by
  cases r <;> simp_all [State.writeReg16, RegName.allows]

end Sys2Proof.Machine
end

