-- ==== Sys2Proof/Laws/Exec.lean ====
section
/-! SUPPORT. One lemma per handler, closed form where it always completes; for the two stores, all they can do. Proofs about
`exec` cite these and unfold nothing. -/

namespace Sys2Proof.Machine

variable {s t : State} {f : Fault}

@[simp] theorem exec_ldB (d8 : Byte) : exec (.ldB d8) s = .next ((s.setRegs { s.regs with b := d8 }).setPc (s.pc + 2)) := rfl
@[simp] theorem exec_ldC (d8 : Byte) : exec (.ldC d8) s = .next ((s.setRegs { s.regs with c := d8 }).setPc (s.pc + 2)) := rfl
@[simp] theorem exec_ldD (d8 : Byte) : exec (.ldD d8) s = .next ((s.setRegs { s.regs with d := d8 }).setPc (s.pc + 2)) := rfl
@[simp] theorem exec_ldE (d8 : Byte) : exec (.ldE d8) s = .next ((s.setRegs { s.regs with e := d8 }).setPc (s.pc + 2)) := rfl
@[simp] theorem exec_ldH (d8 : Byte) : exec (.ldH d8) s = .next ((s.setRegs { s.regs with h := d8 }).setPc (s.pc + 2)) := rfl
@[simp] theorem exec_ldL (d8 : Byte) : exec (.ldL d8) s = .next ((s.setRegs { s.regs with l := d8 }).setPc (s.pc + 2)) := rfl
@[simp] theorem exec_ldA (d8 : Byte) : exec (.ldA d8) s = .next ((s.setRegs { s.regs with a := d8 }).setPc (s.pc + 2)) := rfl
@[simp] theorem exec_ldBC (d16 : Word) : exec (.ldBC d16) s = .next ((s.setRegs (s.regs.setBC d16)).setPc (s.pc + 3)) := rfl
@[simp] theorem exec_ldDE (d16 : Word) : exec (.ldDE d16) s = .next ((s.setRegs (s.regs.setDE d16)).setPc (s.pc + 3)) := rfl
@[simp] theorem exec_ldHL (d16 : Word) : exec (.ldHL d16) s = .next ((s.setRegs (s.regs.setHL d16)).setPc (s.pc + 3)) := rfl
@[simp] theorem exec_ldSP (d16 : Word) : exec (.ldSP d16) s = .next ((s.setSp d16).setPc (s.pc + 3)) := rfl

@[simp] theorem exec_jrNZ (e8 : Byte) :
    exec (.jrNZ e8) s = .next (s.setPc (if s.flags.z then branchFallThrough s.pc else branchTarget s.pc e8)) := by
  cases h : s.flags.z <;> simp [exec, execJrNZ, conditionNZ, h]

@[simp] theorem exec_xorA : exec .xorA s = .next (((s.setRegs { s.regs with a := 0 }).setFlags
    { z := true, n := false, h := false, c := false }).setPc (s.pc + 1)) := by
  simp [exec, execXorA, xorWithItself, State.readReg8, State.writeReg8, outcome, flagsAfterXor, bind, Except.bind, pure,
    Except.pure]

@[simp] theorem exec_bit7B : exec .bit7B s = .next ((s.setFlags (flagsAfterBit7 s.regs.b s.flags)).setPc (s.pc + 2)) := rfl
@[simp] theorem exec_bit7C : exec .bit7C s = .next ((s.setFlags (flagsAfterBit7 s.regs.c s.flags)).setPc (s.pc + 2)) := rfl
@[simp] theorem exec_bit7D : exec .bit7D s = .next ((s.setFlags (flagsAfterBit7 s.regs.d s.flags)).setPc (s.pc + 2)) := rfl
@[simp] theorem exec_bit7E : exec .bit7E s = .next ((s.setFlags (flagsAfterBit7 s.regs.e s.flags)).setPc (s.pc + 2)) := rfl
@[simp] theorem exec_bit7H : exec .bit7H s = .next ((s.setFlags (flagsAfterBit7 s.regs.h s.flags)).setPc (s.pc + 2)) := rfl
@[simp] theorem exec_bit7L : exec .bit7L s = .next ((s.setFlags (flagsAfterBit7 s.regs.l s.flags)).setPc (s.pc + 2)) := rfl
@[simp] theorem exec_bit7A : exec .bit7A s = .next ((s.setFlags (flagsAfterBit7 s.regs.a s.flags)).setPc (s.pc + 2)) := rfl

/-- All `LD (HL-),A` can do when it completes. -/
theorem exec_ldHLDecA_next (h : exec .ldHLDecA s = .next t) :
    ∃ s1, s.writeU8 s.regs.hl s.regs.a = .ok s1 ∧ t = (s1.setRegs (s.regs.setHL (s.regs.hl - 1))).setPc (s.pc + 1) := by
  simp only [exec, execLdHLDecA, storeAndDecrement, State.readReg16, State.readReg8, State.writeReg16, bind, Except.bind,
    pure, Except.pure] at h
  cases hw : s.writeU8 s.regs.hl s.regs.a with
  | error f => simp [hw, outcome] at h
  | ok s1 =>
    have hr : s1.regs = s.regs := by rw [writeU8_frame hw]
    simp only [hw, outcome, Host.Outcome.next.injEq, hr] at h
    exact ⟨s1, rfl, h.symm⟩

/-- It faults when its store does, with the store's fault. -/
theorem exec_ldHLDecA_error (h : s.writeU8 s.regs.hl s.regs.a = .error f) : exec .ldHLDecA s = .fault f := by
  simp [exec, execLdHLDecA, storeAndDecrement, State.readReg16, State.readReg8, bind, Except.bind, h, outcome]

/-- It completes when its store does. -/
theorem exec_ldHLDecA_ok {s1 : State} (h : s.writeU8 s.regs.hl s.regs.a = .ok s1) :
    exec .ldHLDecA s = .next ((s1.setRegs (s.regs.setHL (s.regs.hl - 1))).setPc (s.pc + 1)) := by
  have hr : s1.regs = s.regs := by rw [writeU8_frame h]
  simp [exec, execLdHLDecA, storeAndDecrement, State.readReg16, State.readReg8, State.writeReg16, bind, Except.bind, h,
    outcome, pure, Except.pure, hr, postDecrement]

theorem highPageAddress_toNat (c : Byte) : (highPageAddress c).toNat = 0xFF00 + c.toNat := by
  have := c.isLt
  have hb : Config.highBase.toNat = 0xFF00 := rfl
  simp only [highPageAddress, zext16, BitVec.toNat_add, BitVec.toNat_setWidth, hb]
  omega

/-- All `LD (C),A` can do: the address is never RAM or VRAM, so a write that is accepted stores nothing. -/
theorem exec_ldHighCA_io (h : region (highPageAddress s.regs.c) = .io) :
    exec .ldHighCA s = .next (s.setPc (s.pc + 1)) := by
  simp [exec, execLdHighCA, storeHighPage, State.readReg8, State.store8, State.writeU8, h, bind, Except.bind, outcome, pure,
    Except.pure]

theorem exec_ldHighCA_unimplemented (h : region (highPageAddress s.regs.c) = .unimplemented) :
    exec .ldHighCA s = .fault (.unimplementedMemoryRegion (highPageAddress s.regs.c) .write) := by
  simp [exec, execLdHighCA, storeHighPage, State.readReg8, State.store8, State.writeU8, h, bind, Except.bind, outcome]

theorem highPage_region (c : Byte) :
    (region (highPageAddress c) = .io ∧ c.toNat ≤ 0x7F) ∨ (region (highPageAddress c) = .unimplemented ∧ 0x80 ≤ c.toNat) := by
  have hc := c.isLt
  have ha := highPageAddress_toNat c
  by_cases h : c.toNat ≤ 0x7F
  · exact .inl ⟨region_eq_io.2 (by omega), h⟩
  · exact .inr ⟨region_eq_unimplemented.2 (by omega), by omega⟩

theorem exec_ldHighCA_next (h : exec .ldHighCA s = .next t) : t = s.setPc (s.pc + 1) := by
  rcases highPage_region s.regs.c with ⟨hr, _⟩ | ⟨hr, _⟩
  · rw [exec_ldHighCA_io hr] at h
    exact (Host.Outcome.next.inj h).symm
  · simp [exec_ldHighCA_unimplemented hr] at h

end Sys2Proof.Machine
end

