-- ==== Sys2Proof/Laws/PerInstr.lean ====
section
/-! SUPPORT. The statement family `Form`, made for each constructor of `Instr`: the registers it accesses support their widths
(R27), and its encoding has its length, 1 to 3 bytes (R90, R92). -/

namespace Sys2Proof.Laws.Form

def Statement (i : Instr) : Prop :=
  i.wellFormed = true ∧ (encode i).length = i.length ∧ 1 ≤ i.length ∧ i.length ≤ 3

theorem ldB (d8 : Byte) : Statement (.ldB d8) := ⟨rfl, rfl, by simp [Instr.length], by simp [Instr.length]⟩
theorem ldC (d8 : Byte) : Statement (.ldC d8) := ⟨rfl, rfl, by simp [Instr.length], by simp [Instr.length]⟩
theorem ldD (d8 : Byte) : Statement (.ldD d8) := ⟨rfl, rfl, by simp [Instr.length], by simp [Instr.length]⟩
theorem ldE (d8 : Byte) : Statement (.ldE d8) := ⟨rfl, rfl, by simp [Instr.length], by simp [Instr.length]⟩
theorem ldH (d8 : Byte) : Statement (.ldH d8) := ⟨rfl, rfl, by simp [Instr.length], by simp [Instr.length]⟩
theorem ldL (d8 : Byte) : Statement (.ldL d8) := ⟨rfl, rfl, by simp [Instr.length], by simp [Instr.length]⟩
theorem ldA (d8 : Byte) : Statement (.ldA d8) := ⟨rfl, rfl, by simp [Instr.length], by simp [Instr.length]⟩
theorem ldBC (d16 : Word) : Statement (.ldBC d16) := ⟨rfl, rfl, by simp [Instr.length], by simp [Instr.length]⟩
theorem ldDE (d16 : Word) : Statement (.ldDE d16) := ⟨rfl, rfl, by simp [Instr.length], by simp [Instr.length]⟩
theorem ldHL (d16 : Word) : Statement (.ldHL d16) := ⟨rfl, rfl, by simp [Instr.length], by simp [Instr.length]⟩
theorem ldSP (d16 : Word) : Statement (.ldSP d16) := ⟨rfl, rfl, by simp [Instr.length], by simp [Instr.length]⟩
theorem jrNZ (e8 : Byte) : Statement (.jrNZ e8) := ⟨rfl, rfl, by simp [Instr.length], by simp [Instr.length]⟩
theorem ldHLDecA : Statement .ldHLDecA := ⟨rfl, rfl, by simp [Instr.length], by simp [Instr.length]⟩
theorem ldHighCA : Statement .ldHighCA := ⟨rfl, rfl, by simp [Instr.length], by simp [Instr.length]⟩
theorem xorA : Statement .xorA := ⟨rfl, rfl, by simp [Instr.length], by simp [Instr.length]⟩
theorem bit7B : Statement .bit7B := ⟨rfl, rfl, by simp [Instr.length], by simp [Instr.length]⟩
theorem bit7C : Statement .bit7C := ⟨rfl, rfl, by simp [Instr.length], by simp [Instr.length]⟩
theorem bit7D : Statement .bit7D := ⟨rfl, rfl, by simp [Instr.length], by simp [Instr.length]⟩
theorem bit7E : Statement .bit7E := ⟨rfl, rfl, by simp [Instr.length], by simp [Instr.length]⟩
theorem bit7H : Statement .bit7H := ⟨rfl, rfl, by simp [Instr.length], by simp [Instr.length]⟩
theorem bit7L : Statement .bit7L := ⟨rfl, rfl, by simp [Instr.length], by simp [Instr.length]⟩
theorem bit7A : Statement .bit7A := ⟨rfl, rfl, by simp [Instr.length], by simp [Instr.length]⟩

end Sys2Proof.Laws.Form
end

