-- ==== Sys2Proof/Laws/Step.lean ====
section
/-! SUPPORT. All a fetch, a step and an `IF-STEP` can do, said once. -/

namespace Sys2Proof.Machine

variable {s t : State} {f : Fault}

/-! What follows the first byte, by its row and the byte reads. -/

section rows

variable {p : Word} {op : Byte}

theorem fetchRow_opD8_ok {make : Byte → Instr} {v : Byte} (h : s.readU8 (p + 1) = .ok v) :
    fetchRow s p op (some (.opD8 make)) = .ok (make v) := by simp only [fetchRow, h, bind, Except.bind, pure, Except.pure]

theorem fetchRow_opD8_error {make : Byte → Instr} (h : s.readU8 (p + 1) = .error f) :
    fetchRow s p op (some (.opD8 make)) = .error f := by simp only [fetchRow, h, bind, Except.bind]

theorem fetchRow_opE8_ok {make : Byte → Instr} {v : Byte} (h : s.readU8 (p + 1) = .ok v) :
    fetchRow s p op (some (.opE8 make)) = .ok (make v) := by simp only [fetchRow, h, bind, Except.bind, pure, Except.pure]

theorem fetchRow_opE8_error {make : Byte → Instr} (h : s.readU8 (p + 1) = .error f) :
    fetchRow s p op (some (.opE8 make)) = .error f := by simp only [fetchRow, h, bind, Except.bind]

theorem add_one_add_one (p : Word) : p + 1 + 1 = p + 2 := by rw [BitVec.add_assoc]; rfl

theorem fetchRow_opD16_ok {make : Word → Instr} {low high : Byte} (hl : s.readU8 (p + 1) = .ok low)
    (hh : s.readU8 (p + 2) = .ok high) : fetchRow s p op (some (.opD16 make)) = .ok (make (concat high low)) := by
  simp only [fetchRow, State.readU16, add_one_add_one, hl, hh, bind, Except.bind, pure, Except.pure, leWord]

theorem fetchRow_opD16_error_high {make : Word → Instr} (hh : s.readU8 (p + 2) = .error f) :
    fetchRow s p op (some (.opD16 make)) = .error f := by
  simp only [fetchRow, State.readU16, add_one_add_one, hh, bind, Except.bind]

theorem fetchRow_opD16_error_low {make : Word → Instr} {high : Byte} (hh : s.readU8 (p + 2) = .ok high)
    (hl : s.readU8 (p + 1) = .error f) : fetchRow s p op (some (.opD16 make)) = .error f := by
  simp only [fetchRow, State.readU16, add_one_add_one, hl, hh, bind, Except.bind]

theorem fetchRow_cbXop_ok {xop : Byte} {i : Instr} (h : s.readU8 (p + 1) = .ok xop) (hx : extendedInstr xop = some i) :
    fetchRow s p op (some .cbXop) = .ok i := by simp only [fetchRow, h, hx, bind, Except.bind, pure, Except.pure]

theorem fetchRow_cbXop_unknown {xop : Byte} (h : s.readU8 (p + 1) = .ok xop) (hx : extendedInstr xop = none) :
    fetchRow s p op (some .cbXop) = .error (.unknownExtendedOpcode xop (p + 1)) := by
  simp only [fetchRow, h, hx, bind, Except.bind]

theorem fetchRow_cbXop_error (h : s.readU8 (p + 1) = .error f) : fetchRow s p op (some .cbXop) = .error f := by
  simp only [fetchRow, h, bind, Except.bind]

/-- All a fetch after the first byte can do when it succeeds, by the row. -/
theorem fetchRow_ok {row : Option Row} {i : Instr} (h : fetchRow s p op row = .ok i) :
    row = some (.op i) ∨
    (∃ make v, row = some (.opD8 make) ∧ s.readU8 (p + 1) = .ok v ∧ i = make v) ∨
    (∃ make v, row = some (.opE8 make) ∧ s.readU8 (p + 1) = .ok v ∧ i = make v) ∨
    (∃ make high low, row = some (.opD16 make) ∧ s.readU8 (p + 2) = .ok high ∧ s.readU8 (p + 1) = .ok low ∧
      i = make (concat high low)) ∨
    (∃ xop, row = some .cbXop ∧ s.readU8 (p + 1) = .ok xop ∧ extendedInstr xop = some i) := by
  match row with
  | none => cases h
  | some (.op j) => cases h; exact .inl rfl
  | some (.opD8 make) =>
    cases hv : s.readU8 (p + 1) with
    | error f => rw [fetchRow_opD8_error hv] at h; cases h
    | ok v => rw [fetchRow_opD8_ok hv] at h; cases h; exact .inr (.inl ⟨make, v, rfl, rfl, rfl⟩)
  | some (.opE8 make) =>
    cases hv : s.readU8 (p + 1) with
    | error f => rw [fetchRow_opE8_error hv] at h; cases h
    | ok v => rw [fetchRow_opE8_ok hv] at h; cases h; exact .inr (.inr (.inl ⟨make, v, rfl, rfl, rfl⟩))
  | some (.opD16 make) =>
    cases hh : s.readU8 (p + 2) with
    | error f => rw [fetchRow_opD16_error_high hh] at h; cases h
    | ok high =>
      cases hl : s.readU8 (p + 1) with
      | error f => rw [fetchRow_opD16_error_low hh hl] at h; cases h
      | ok low =>
        rw [fetchRow_opD16_ok hl hh] at h
        cases h
        exact .inr (.inr (.inr (.inl ⟨make, high, low, rfl, rfl, rfl, rfl⟩)))
  | some .cbXop =>
    cases hv : s.readU8 (p + 1) with
    | error f => rw [fetchRow_cbXop_error hv] at h; cases h
    | ok xop =>
      cases hx : extendedInstr xop with
      | none => rw [fetchRow_cbXop_unknown hv hx] at h; cases h
      | some j =>
        rw [fetchRow_cbXop_ok hv hx] at h
        cases h
        exact .inr (.inr (.inr (.inr ⟨xop, rfl, rfl, hx⟩)))

/-- All the faults a fetch after the first byte can raise. -/
theorem fetchRow_error {row : Option Row} (h : fetchRow s p op row = .error f) :
    (row = none ∧ f = .unknownOpcode op p) ∨
    (row = some .cbXop ∧ ∃ xop, s.readU8 (p + 1) = .ok xop ∧ extendedInstr xop = none ∧
      f = .unknownExtendedOpcode xop (p + 1)) ∨
    s.readU8 (p + 1) = .error f ∨ s.readU8 (p + 2) = .error f := by
  match row with
  | none => cases h; exact .inl ⟨rfl, rfl⟩
  | some (.op j) => cases h
  | some (.opD8 make) =>
    cases hv : s.readU8 (p + 1) with
    | error g => rw [fetchRow_opD8_error hv] at h; cases h; exact .inr (.inr (.inl rfl))
    | ok v => rw [fetchRow_opD8_ok hv] at h; cases h
  | some (.opE8 make) =>
    cases hv : s.readU8 (p + 1) with
    | error g => rw [fetchRow_opE8_error hv] at h; cases h; exact .inr (.inr (.inl rfl))
    | ok v => rw [fetchRow_opE8_ok hv] at h; cases h
  | some (.opD16 make) =>
    cases hh : s.readU8 (p + 2) with
    | error g => rw [fetchRow_opD16_error_high hh] at h; cases h; exact .inr (.inr (.inr rfl))
    | ok high =>
      cases hl : s.readU8 (p + 1) with
      | error g => rw [fetchRow_opD16_error_low hh hl] at h; cases h; exact .inr (.inr (.inl rfl))
      | ok low => rw [fetchRow_opD16_ok hl hh] at h; cases h
  | some .cbXop =>
    cases hv : s.readU8 (p + 1) with
    | error g => rw [fetchRow_cbXop_error hv] at h; cases h; exact .inr (.inr (.inl rfl))
    | ok xop =>
      cases hx : extendedInstr xop with
      | none =>
        rw [fetchRow_cbXop_unknown hv hx] at h
        cases h
        exact .inr (.inl ⟨rfl, xop, rfl, hx, rfl⟩)
      | some j => rw [fetchRow_cbXop_ok hv hx] at h; cases h

end rows

/-- A fetch that succeeds read the opcode byte at `pc`, then what its row asks for. -/
theorem fetch_ok {x : Fetched} (h : fetch s = .ok x) :
    s.readU8 s.pc = .ok x.opcode ∧ fetchRest s s.pc x.opcode = .ok x.instr := by
  unfold fetch at h
  cases h1 : s.readU8 s.pc with
  | error f => simp [h1, bind, Except.bind] at h
  | ok op =>
    cases h2 : fetchRest s s.pc op with
    | error f => simp [h1, h2, bind, Except.bind] at h
    | ok i =>
      simp only [h1, h2, bind, Except.bind, pure, Except.pure, Except.ok.injEq] at h
      subst h
      exact ⟨rfl, h2⟩

/-- A fetch that faults: the opcode byte's read, or what follows it. -/
theorem fetch_error (h : fetch s = .error f) :
    s.readU8 s.pc = .error f ∨ ∃ op, s.readU8 s.pc = .ok op ∧ fetchRest s s.pc op = .error f := by
  unfold fetch at h
  cases h1 : s.readU8 s.pc with
  | error f => simp_all [bind, Except.bind]
  | ok op =>
    cases h2 : fetchRest s s.pc op <;> simp_all [bind, Except.bind, pure, Except.pure]

theorem fetch_of_opcode {op : Byte} (h : s.readU8 s.pc = .ok op) :
    fetch s = (fetchRest s s.pc op).map fun i => { opcode := op, instr := i } := by
  unfold fetch
  cases h2 : fetchRest s s.pc op <;> simp [h, h2, bind, Except.bind, pure, Except.pure, Except.map]

/-- The fetch by the row of the opcode byte. -/
theorem fetch_of_row {op : Byte} {row : Option Row} (h : s.readU8 s.pc = .ok op) (hr : firstByteRow op = row) :
    fetch s = (fetchRow s s.pc op row).map fun i => { opcode := op, instr := i } := by
  rw [fetch_of_opcode h, fetchRest, hr]

theorem fetch_of_opcode_error (h : s.readU8 s.pc = .error f) : fetch s = .error f := by
  simp [fetch, h, bind, Except.bind]

/-- A step that answers a next state fetched an instruction and ran its handler, in a state that was not `FAULTED`. -/
theorem step_next (h : step s = .next t) :
    s.faultRecord = none ∧ ∃ x, fetch s = .ok x ∧ exec x.instr s = .next t := by
  unfold step at h
  split at h
  · exact absurd h (by simp)
  · split at h
    · exact absurd h (by simp)
    · exact ⟨‹_›, _, ‹_›, h⟩

/-- A step that answers a fault: the record, the fetch's fault, or the handler's. -/
theorem step_fault (h : step s = .fault f) :
    s.faultRecord = some f ∨ (s.faultRecord = none ∧ (fetch s = .error f ∨ ∃ x, fetch s = .ok x ∧ exec x.instr s = .fault f)) := by
  unfold step at h
  split at h
  · simp_all
  · split at h
    · simp_all
    · exact .inr ⟨‹_›, .inr ⟨_, ‹_›, h⟩⟩

theorem step_of_record (h : s.faultRecord = some f) : step s = .fault f := by simp [step, h]
theorem step_of_fetch_error (h : s.faultRecord = none) (hf : fetch s = .error f) : step s = .fault f := by simp [step, h, hf]
theorem step_of_fetch {x : Fetched} (h : s.faultRecord = none) (hf : fetch s = .ok x) : step s = exec x.instr s := by
  simp [step, h, hf]

theorem ifStep_of_record (h : s.faultRecord = some f) : ifStep s = (.fault f, s) := by simp [ifStep, h]
theorem ifStep_of_fetch_error (h : s.faultRecord = none) (hf : fetch s = .error f) :
    ifStep s = (.fault f, s.latchFault f) := by simp [ifStep, h, hf]
theorem ifStep_of_next {x : Fetched} (h : s.faultRecord = none) (hf : fetch s = .ok x) (he : exec x.instr s = .next t) :
    ifStep s = (.ok t.pc x.opcode, t) := by simp [ifStep, h, hf, he]
theorem ifStep_of_fault {x : Fetched} (h : s.faultRecord = none) (hf : fetch s = .ok x) (he : exec x.instr s = .fault f) :
    ifStep s = (.fault f, s.latchFault f) := by simp [ifStep, h, hf, he]

end Sys2Proof.Machine
end

