-- ==== Sys2Proof/Laws/Trace.lean ====
section
/-! SUPPORT. What a range label says of its address (spec/20_memory.md R59). -/

namespace Sys2Proof.Machine

/-- The addresses of each part. -/
theorem platformRange_bounds (a : Word) :
    match platformRange a with
    | .restartInterruptVectors => a.toNat ≤ 0x00FF
    | .cartridgeHeader => 0x0100 ≤ a.toNat ∧ a.toNat ≤ 0x014F
    | .cartridgeRomBank0 => 0x0150 ≤ a.toNat ∧ a.toNat ≤ 0x3FFF
    | .cartridgeRomSwitchable => 0x4000 ≤ a.toNat ∧ a.toNat ≤ 0x7FFF
    | .videoRam => 0x8000 ≤ a.toNat ∧ a.toNat ≤ 0x9FFF
    | .cartridgeRamBank => 0xA000 ≤ a.toNat ∧ a.toNat ≤ 0xBFFF
    | .internalRamBank0 => 0xC000 ≤ a.toNat ∧ a.toNat ≤ 0xCFFF
    | .internalRamBanks1to7 => 0xD000 ≤ a.toNat ∧ a.toNat ≤ 0xDFFF
    | .echoRam => 0xE000 ≤ a.toNat ∧ a.toNat ≤ 0xFDFF
    | .oam => 0xFE00 ≤ a.toNat ∧ a.toNat ≤ 0xFE9F
    | .unusable => 0xFEA0 ≤ a.toNat ∧ a.toNat ≤ 0xFEFF
    | .hardwareIo => 0xFF00 ≤ a.toNat ∧ a.toNat ≤ 0xFF7F
    | .zeroPage => 0xFF80 ≤ a.toNat ∧ a.toNat ≤ 0xFFFE
    | .interruptEnable => a.toNat = 0xFFFF := by
  have ha := a.isLt
  simp only [platformRange]
  generalize a.toNat = n at *
  by_cases h1 : n ≤ 0x00FF
  · simp only [h1, if_true]
  rw [if_neg h1]
  by_cases h2 : n ≤ 0x014F
  · rw [if_pos h2]; exact ⟨by omega, h2⟩
  rw [if_neg h2]
  by_cases h3 : n ≤ 0x3FFF
  · rw [if_pos h3]; exact ⟨by omega, h3⟩
  rw [if_neg h3]
  by_cases h4 : n ≤ 0x7FFF
  · rw [if_pos h4]; exact ⟨by omega, h4⟩
  rw [if_neg h4]
  by_cases h5 : n ≤ 0x9FFF
  · rw [if_pos h5]; exact ⟨by omega, h5⟩
  rw [if_neg h5]
  by_cases h6 : n ≤ 0xBFFF
  · rw [if_pos h6]; exact ⟨by omega, h6⟩
  rw [if_neg h6]
  by_cases h7 : n ≤ 0xCFFF
  · rw [if_pos h7]; exact ⟨by omega, h7⟩
  rw [if_neg h7]
  by_cases h8 : n ≤ 0xDFFF
  · rw [if_pos h8]; exact ⟨by omega, h8⟩
  rw [if_neg h8]
  by_cases h9 : n ≤ 0xFDFF
  · rw [if_pos h9]; exact ⟨by omega, h9⟩
  rw [if_neg h9]
  by_cases h10 : n ≤ 0xFE9F
  · rw [if_pos h10]; exact ⟨by omega, h10⟩
  rw [if_neg h10]
  by_cases h11 : n ≤ 0xFEFF
  · rw [if_pos h11]; exact ⟨by omega, h11⟩
  rw [if_neg h11]
  by_cases h12 : n ≤ 0xFF7F
  · rw [if_pos h12]; exact ⟨by omega, h12⟩
  rw [if_neg h12]
  by_cases h13 : n ≤ 0xFFFE
  · rw [if_pos h13]; exact ⟨by omega, h13⟩
  rw [if_neg h13]
  simp only
  omega

theorem rangeLabel_eq_none {a : Word} : rangeLabel a = none ↔ a.toNat ≤ 0x1FFF := by
  unfold rangeLabel
  split <;> simp_all [region_eq_ram, region_eq_vram, region_eq_io, region_eq_unimplemented] <;> omega

theorem rangeLabel_eq_some {a : Word} {l : RangeLabel} : rangeLabel a = some l ↔ 0x2000 ≤ a.toNat ∧ platformRange a = l := by
  unfold rangeLabel
  split <;> simp_all [region_eq_ram, region_eq_vram, region_eq_io, region_eq_unimplemented] <;> omega

end Sys2Proof.Machine
end

