-- ==== Sys2Proof/Tests/Slice0.lean ====
section
/-! SUPPORT. The model's own tests: the refused ill-formed terms, decoding of words written out from the spec's encodings, one
or two single steps per instruction with the results the spec's worked examples and vectors give (41 to 44, 95_test_vectors.md),
and for every statement with hypotheses a concrete state and operands that meet them. -/

namespace Sys2Proof.Tests

open Sys2Proof Sys2Proof.Machine

/-- The reset state with `pc = p` and bytes stored from `p` on. -/
def code (p : Word) (bytes : List Byte) : State := { State.reset with pc := p }.placeBytes p bytes

/-- `code` with other byte registers. -/
def codeR (p : Word) (bytes : List Byte) (regs : Regs) : State := { code p bytes with regs := regs }

/-- The byte registers after reset. -/
def zeros : Regs := State.reset.regs

/-- A request to step a state gives a response and an edited state. -/
def steps (s : State) (r : StepResponse) (edit : State → State) : Bool := decide (ifStep s = (r, edit s))

/-- A request to step a state answers a fault, and only the latch changes. -/
def faults (s : State) (f : Fault) : Bool := steps s (.fault f) fun s => { s with faultRecord := some f }

/-- The state with four flags. -/
def flagged (s : State) (z n h c : Bool) : State := { s with flags := { z := z, n := n, h := h, c := c } }

/-! The checks of WellFormed refuse what they are there to refuse. -/

theorem test_a_has_no_width_16 : accessesWellFormed [(.A, .w16)] = false := by decide
theorem test_bc_has_no_width_8 : accessesWellFormed [(.B, .w8), (.BC, .w8)] = false := by decide
theorem test_sp_has_no_width_8 : accessesWellFormed [(.SP, .w8)] = false := by decide
theorem test_pc_has_no_width : accessesWellFormed [(.PC, .w8)] = false ∧ accessesWellFormed [(.PC, .w16)] = false := by decide
theorem test_good_accesses_pass : accessesWellFormed [(.HL, .w16), (.A, .w8)] = true := by decide
theorem test_long_image_is_refused (v : Byte) : bootImageWellFormed (List.replicate 8193 v) = false := by
  unfold bootImageWellFormed; rw [List.length_replicate]; rfl
theorem test_full_image_passes (v : Byte) : bootImageWellFormed (List.replicate 8192 v) = true := by
  unfold bootImageWellFormed; rw [List.length_replicate]; rfl

/-! Every constructor's decoding, from the formats and the tables of 30_encoding.md (R91, R94 to R97: `00rrr110`, `00pp0001`,
`01111rrr`). -/

theorem test_decode_ldB : decode [0b00000110, 0x12] = .instr (.ldB 0x12) [] := by decide
theorem test_decode_ldC : decode [0b00001110, 0x11] = .instr (.ldC 0x11) [] := by decide
theorem test_decode_ldD : decode [0b00010110, 0x80] = .instr (.ldD 0x80) [] := by decide
theorem test_decode_ldE : decode [0b00011110, 0xFF] = .instr (.ldE 0xFF) [] := by decide
theorem test_decode_ldH : decode [0b00100110, 0x98] = .instr (.ldH 0x98) [] := by decide
theorem test_decode_ldL : decode [0b00101110, 0x00] = .instr (.ldL 0x00) [] := by decide
theorem test_decode_ldA : decode [0b00111110, 0x80] = .instr (.ldA 0x80) [] := by decide
theorem test_decode_ldBC : decode [0b00000001, 0x34, 0x12] = .instr (.ldBC 0x1234) [] := by decide
theorem test_decode_ldDE : decode [0b00010001, 0x04, 0x01] = .instr (.ldDE 0x0104) [] := by decide
theorem test_decode_ldHL : decode [0b00100001, 0xFF, 0x9F] = .instr (.ldHL 0x9FFF) [] := by decide
theorem test_decode_ldSP : decode [0b00110001, 0xFE, 0xFF] = .instr (.ldSP 0xFFFE) [] := by decide
theorem test_decode_jrNZ : decode [0b00100000, 0xFB] = .instr (.jrNZ 0xFB) [] := by decide
theorem test_decode_ldHLDecA : decode [0b00110010] = .instr .ldHLDecA [] := by decide
theorem test_decode_ldHighCA : decode [0b11100010] = .instr .ldHighCA [] := by decide
theorem test_decode_xorA : decode [0b10101111] = .instr .xorA [] := by decide
theorem test_decode_bit7B : decode [0b11001011, 0b01111000] = .instr .bit7B [] := by decide
theorem test_decode_bit7C : decode [0b11001011, 0b01111001] = .instr .bit7C [] := by decide
theorem test_decode_bit7D : decode [0b11001011, 0b01111010] = .instr .bit7D [] := by decide
theorem test_decode_bit7E : decode [0b11001011, 0b01111011] = .instr .bit7E [] := by decide
theorem test_decode_bit7H : decode [0b11001011, 0b01111100] = .instr .bit7H [] := by decide
theorem test_decode_bit7L : decode [0b11001011, 0b01111101] = .instr .bit7L [] := by decide
theorem test_decode_bit7A : decode [0b11001011, 0b01111111] = .instr .bit7A [] := by decide

/-- `110` names no register in either field (R96). -/
theorem test_decode_register_110 :
    decode [0b00110110, 0x00] = .unknownOpcode 0x36 ∧ decode [0xCB, 0b01111110] = .unknownExtendedOpcode 0x7E := by decide

theorem test_decode_short : decode [] = .truncated ∧ decode [0x06] = .truncated ∧ decode [0x01, 0x34] = .truncated ∧
    decode [0xCB] = .truncated := by decide

/-! The host's two questions, on table words of both numberings (log 3 and 4). -/

theorem test_table_word_one_byte : decodeTableWord 8 0x32 = some .ldHLDecA := by decide
theorem test_table_word_with_operand : decodeTableWord 8 0x06 = some (.ldB 0) ∧ decodeTableWord 24 0x123401 = some (.ldBC 0x1234) := by
  decide
theorem test_table_word_prefixed : decodeTableWord 16 0xCB78 = some .bit7B ∧ decodeTableWord 16 0x78CB = some .bit7B := by decide
theorem test_table_word_unassigned : decodeTableWord 8 0x00 = none ∧ decodeTableWord 16 0xCB7E = none := by decide
theorem test_fetch_word_runs : steps (State.reset.withFetchWord 16 0xCB7F) (.ok 2 0xCB)
    (fun s => { flagged s true false true false with pc := 2 }) = true := by decide
theorem test_fetch_word_clears_latch : steps ({ State.reset with faultRecord := some (.unknownOpcode 0 0) }.withFetchWord 8 0xAF)
    (.ok 1 0xAF) (fun s => { flagged s true false false false with pc := 1 }) = true := by decide

/-! One step each: the worked example of the instruction's rule, and a vector of 95_test_vectors.md. -/

/-- R140. -/
theorem test_ldB : steps (code 0x0100 [0x06, 0x12]) (.ok 0x0102 0x06)
    (fun s => { s with regs := { zeros with b := 0x12 }, pc := 0x0102 }) = true := by decide

/-- T10: code in video RAM, flags kept although the value is zero. -/
theorem test_ldB_keeps_flags : steps (flagged (codeR 0x9FFE [0x06, 0x00] { zeros with b := 0x55 }) true true true true)
    (.ok 0xA000 0x06) (fun s => { s with regs := zeros, pc := 0xA000 }) = true := by decide

/-- R141. -/
theorem test_ldC : steps (code 0x0006 [0x0E, 0x11]) (.ok 0x0008 0x0E)
    (fun s => { s with regs := { zeros with c := 0x11 }, pc := 0x0008 }) = true := by decide

/-- R142. -/
theorem test_ldD : steps (code 0x0000 [0x16, 0x80]) (.ok 0x0002 0x16)
    (fun s => { s with regs := { zeros with d := 0x80 }, pc := 0x0002 }) = true := by decide

/-- R143. -/
theorem test_ldE : steps (codeR 0x0010 [0x1E, 0xFF] { zeros with e := 0x01 }) (.ok 0x0012 0x1E)
    (fun s => { s with regs := { zeros with e := 0xFF }, pc := 0x0012 }) = true := by decide

/-- R144. -/
theorem test_ldH : steps (codeR 0x0020 [0x26, 0x98] { zeros with l := 0x34 }) (.ok 0x0022 0x26)
    (fun s => { s with regs := { zeros with h := 0x98, l := 0x34 }, pc := 0x0022 }) = true := by decide

/-- R145. -/
theorem test_ldL : steps (codeR 0x0030 [0x2E, 0x00] { zeros with h := 0x98, l := 0x34 }) (.ok 0x0032 0x2E)
    (fun s => { s with regs := { zeros with h := 0x98 }, pc := 0x0032 }) = true := by decide

/-- R146. -/
theorem test_ldA : steps (codeR 0x0008 [0x3E, 0x80] { zeros with a := 0x42 }) (.ok 0x000A 0x3E)
    (fun s => { s with regs := { zeros with a := 0x80 }, pc := 0x000A }) = true := by decide

/-- T10: the last two bytes of RAM. -/
theorem test_ldA_at_the_end_of_ram : steps (code 0x1FFE [0x3E, 0xFF]) (.ok 0x2000 0x3E)
    (fun s => { s with regs := { zeros with a := 0xFF }, pc := 0x2000 }) = true := by decide

/-- R147. -/
theorem test_ldBC : steps (code 0x0000 [0x01, 0x34, 0x12]) (.ok 0x0003 0x01)
    (fun s => { s with regs := { zeros with b := 0x12, c := 0x34 }, pc := 0x0003 }) = true := by decide

/-- T11: at 0x1FFF the high byte's address is reported. -/
theorem test_ldBC_reports_the_high_byte : faults (code 0x1FFF [0x01]) (.unimplementedMemoryRegion 0x2001 .read) = true := by decide

/-- R148. -/
theorem test_ldDE : steps (code 0x0003 [0x11, 0x04, 0x01]) (.ok 0x0006 0x11)
    (fun s => { s with regs := { zeros with d := 0x01, e := 0x04 }, pc := 0x0006 }) = true := by decide

/-- R149. -/
theorem test_ldHL : steps (code 0x0004 [0x21, 0xFF, 0x9F]) (.ok 0x0007 0x21)
    (fun s => { s with regs := { zeros with h := 0x9F, l := 0xFF }, pc := 0x0007 }) = true := by decide

/-- R150. -/
theorem test_ldSP : steps (code 0x0000 [0x31, 0xFE, 0xFF]) (.ok 0x0003 0x31)
    (fun s => { s with sp := 0xFFFE, pc := 0x0003 }) = true := by decide

/-- R160: taken. -/
theorem test_jrNZ_taken : steps (code 0x000A [0x20, 0xFB]) (.ok 0x0007 0x20) (fun s => { s with pc := 0x0007 }) = true := by decide

/-- R160: not taken. -/
theorem test_jrNZ_not_taken : steps (flagged (code 0x000A [0x20, 0xFB]) true false false false) (.ok 0x000C 0x20)
    (fun s => { s with pc := 0x000C }) = true := by decide

/-- T12: the targets of the largest offsets, and a wrap below zero. -/
theorem test_branch_targets : branchTarget 0x0100 0x7F = 0x0181 ∧ branchTarget 0x0100 0x80 = 0x0082 ∧
    branchTarget 0x0100 0xFF = 0x0101 ∧ branchTarget 0x0000 0x80 = 0xFF82 := by decide

/-- R170, the source's example. -/
theorem test_ldHLDecA : steps (codeR 0x0005 [0x32] { zeros with a := 0x42, h := 0x10 }) (.ok 0x0006 0x32)
    (fun s => { s with ram := [(0x0005, 0x32), (0x1000, 0x42)], regs := { zeros with a := 0x42, h := 0x0F, l := 0xFF }, pc := 0x0006 })
    = true := by decide

/-- T13: the last address of IO, the write dropped and the pair decremented; a fault leaves the pair alone. -/
theorem test_ldHLDecA_io_and_fault :
    steps (codeR 0 [0x32] { zeros with a := 0x42, h := 0xFF, l := 0x7F }) (.ok 1 0x32)
      (fun s => { s with regs := { zeros with a := 0x42, h := 0xFF, l := 0x7E }, pc := 1 }) = true ∧
    faults (codeR 0 [0x32] { zeros with a := 0x42, h := 0xFF, l := 0x80 }) (.unimplementedMemoryRegion 0xFF80 .write) = true := by
  decide

/-- R171. -/
theorem test_ldHighCA : steps (codeR 0x000A [0xE2] { zeros with a := 0x80, c := 0x11 }) (.ok 0x000B 0xE2)
    (fun s => { s with pc := 0x000B }) = true := by decide

/-- T14. -/
theorem test_ldHighCA_faults : faults (codeR 0 [0xE2] { zeros with a := 0x99, c := 0x80 }) (.unimplementedMemoryRegion 0xFF80 .write) = true ∧
    faults (codeR 0 [0xE2] { zeros with a := 0x99, c := 0xFF }) (.unimplementedMemoryRegion 0xFFFF .write) = true := by decide

/-- R180. -/
theorem test_xorA : steps (flagged (codeR 0x0003 [0xAF] { zeros with a := 0xFF }) false true true true) (.ok 0x0004 0xAF)
    (fun s => { flagged s true false false false with regs := zeros, pc := 0x0004 }) = true := by decide

/-- R181. -/
theorem test_bit7B : steps (flagged (codeR 0x0010 [0xCB, 0x78] { zeros with b := 0x80 }) true true false true) (.ok 0x0012 0xCB)
    (fun s => { flagged s false false true true with pc := 0x0012 }) = true := by decide

/-- R182. -/
theorem test_bit7C : steps (codeR 0x0000 [0xCB, 0x79] { zeros with c := 0x11 }) (.ok 0x0002 0xCB)
    (fun s => { flagged s true false true false with pc := 0x0002 }) = true := by decide

/-- R183. -/
theorem test_bit7D : steps (flagged (codeR 0x0002 [0xCB, 0x7A] { zeros with d := 0xFF }) true false false false) (.ok 0x0004 0xCB)
    (fun s => { flagged s false false true false with pc := 0x0004 }) = true := by decide

/-- R184. -/
theorem test_bit7E : steps (flagged (code 0x0004 [0xCB, 0x7B]) false true false true) (.ok 0x0006 0xCB)
    (fun s => { flagged s true false true true with pc := 0x0006 }) = true := by decide

/-- R185, the source's example, `H = 0x80`. -/
theorem test_bit7H : steps (codeR 0x0008 [0xCB, 0x7C] { zeros with h := 0x80 }) (.ok 0x000A 0xCB)
    (fun s => { flagged s false false true false with pc := 0x000A }) = true := by decide

/-- R186. -/
theorem test_bit7L : steps (flagged (codeR 0x0006 [0xCB, 0x7D] { zeros with l := 0x7F }) false false true false) (.ok 0x0008 0xCB)
    (fun s => { flagged s true false true false with pc := 0x0008 }) = true := by decide

/-- R187. -/
theorem test_bit7A : steps (flagged (codeR 0x0100 [0xCB, 0x7F] { zeros with a := 0xA5 }) true false false true) (.ok 0x0102 0xCB)
    (fun s => { flagged s false false true true with pc := 0x0102 }) = true := by decide

/-! Faults of decoding and fetching (T17), the latch (T18), the bus (T2, T6), the labels (R58, R59). -/

theorem test_unknown_opcodes : faults (code 0x1FFF [0xFF]) (.unknownOpcode 0xFF 0x1FFF) = true ∧
    faults (code 0 [0x36]) (.unknownOpcode 0x36 0) = true ∧ faults (code 0 []) (.unknownOpcode 0 0) = true := by decide

theorem test_unknown_extended_opcodes : faults (code 0 [0xCB, 0xCB]) (.unknownExtendedOpcode 0xCB 1) = true ∧
    faults (code 0x0010 [0xCB, 0x00]) (.unknownExtendedOpcode 0x00 0x0011) = true := by decide

theorem test_unreadable_fetches : faults (code 0x1FFF [0xCB]) (.unimplementedMemoryRegion 0x2000 .read) = true ∧
    faults (code 0xFF10 []) (.unimplementedMemoryRegion 0xFF10 .read) = true ∧
    faults (code 0xFFFF []) (.unimplementedMemoryRegion 0xFFFF .read) = true := by decide

/-- T18: a write of the host does not revive a latched machine; a reset does. -/
theorem test_latch_until_reset :
    ifStep (serveAll [.reset [0xFF], .step, .writeU8 0 0xAF] State.reset) =
      (.fault (.unknownOpcode 0xFF 0), serveAll [.reset [0xFF], .step, .writeU8 0 0xAF] State.reset) ∧
    (ifStep (serveAll [.reset [0xFF], .step, .reset [0xAF]] State.reset)).1 = .ok 1 0xAF := by decide

/-- T2. -/
theorem test_read_u16 : (serve (.readU16 0x8000) (serveAll [.writeU8 0x8000 0xCD, .writeU8 0x8001 0xAB] State.reset)).1 = .word 0xABCD ∧
    (serve (.readU16 0x1FFF) State.reset).1 = .fault (.unimplementedMemoryRegion 0x2000 .read) ∧
    (serve (.readU16 0xFFFF) State.reset).1 = .fault (.unimplementedMemoryRegion 0xFFFF .read) := by decide

/-- T6. -/
theorem test_vram_write : (serve (.readU8 0x9900) (serve (.writeU8 0x9900 0x42) State.reset).2).1 = .byte 0x42 ∧
    vramLabel 0x9900 = some .bgMapData1 ∧ vramLabel 0x9C50 = some .bgMapData2 ∧ vramLabel 0x1900 = none := by decide

/-- R59: no label in RAM, cartridge ROM bank 0 from the first address after it, and the ends of the address space. -/
theorem test_range_labels : [0x0000, 0x0100, 0x1FFF, 0x2000, 0x3FFF, 0xFE9F, 0xFEA0, 0xFFFE, 0xFFFF].map rangeLabel =
    [none, none, none, some .cartridgeRomBank0, some .cartridgeRomBank0, some .oam, some .unusable, some .zeroPage,
     some .interruptEnable] := by decide

/-- Writing what an unlisted index reads as removes the entry. -/
theorem test_memory_stays_canonical : Memory.write [(1, 2), (5, 6), (9, 3)] 5 0 = [(1, 2), (9, 3)] ∧
    Memory.write [(1, 2), (9, 3)] 5 7 = [(1, 2), (5, 7), (9, 3)] := by decide

/-! Witnesses: for every statement with hypotheses, values that meet them, clause by clause. -/

/-- A latched state. -/
def latched : State := { State.reset with faultRecord := some (.unknownOpcode 0xFF 0) }

theorem witness_UnassignedBytesAreUnknownOpcodes :
    (0x00 : Byte) ∉ assignedFirstBytes ∧ (0xFF : Byte) ∉ assignedFirstBytes ∧ (0x7E : Byte) ∉ assignedExtendedBytes ∧
    (0xCB : Byte) ∉ assignedExtendedBytes ∧
    ((code 0x1FFF [0xFF]).faultRecord = none ∧ (code 0x1FFF [0xFF]).readU8 (code 0x1FFF [0xFF]).pc = .ok 0xFF) ∧
    ((code 0x1FFE [0xCB, 0x7E]).faultRecord = none ∧ (code 0x1FFE [0xCB, 0x7E]).readU8 (code 0x1FFE [0xCB, 0x7E]).pc = .ok 0xCB ∧
      (code 0x1FFE [0xCB, 0x7E]).readU8 ((code 0x1FFE [0xCB, 0x7E]).pc + 1) = .ok 0x7E) :=
  ⟨by decide, by decide, by decide, by decide, ⟨rfl, rfl⟩, rfl, rfl, rfl⟩

theorem witness_DecodingIsTotalOnEveryPair :
    ((0x32 : Byte) ∈ assignedFirstBytes ∧ (0x32 : Byte) ≠ 0xCB) ∧ (0x7F : Byte) ∈ assignedExtendedBytes ∧
    (0x7E : Byte) ∉ assignedExtendedBytes ∧ (0x36 : Byte) ∉ assignedFirstBytes := by decide

theorem witness_LengthByFirstByteAndAdvance :
    decode [0x3E, 0xFF] = .instr (.ldA 0xFF) [] ∧ decode [0x31, 0, 0x80, 1] = .instr (.ldSP 0x8000) [1] ∧
    decode [0x20, 0x80] = .instr (.jrNZ 0x80) [] ∧ decode [0xE2] = .instr .ldHighCA [] ∧ decode [0xCB, 0x7F] = .instr .bit7A [] ∧
    ((code 0 [0x00]).faultRecord = none ∧ (code 0 [0x00]).readU8 (code 0 [0x00]).pc = .ok 0x00 ∧ (0x00 : Byte) ∉ assignedFirstBytes) ∧
    (∃ t, exec .xorA State.reset = .next t) ∧ ¬ ((∃ e8, Instr.xorA = .jrNZ e8) ∧ State.reset.flags.z = false) ∧
    (∃ t, exec (.jrNZ 0x7F) (flagged State.reset true false false false) = .next t) ∧
    ¬ ((∃ e8, Instr.jrNZ 0x7F = .jrNZ e8) ∧ (flagged State.reset true false false false).flags.z = false) :=
  ⟨by decide, by decide, by decide, by decide, by decide, ⟨rfl, rfl, by decide⟩, ⟨_, rfl⟩, by simp, ⟨_, rfl⟩, by simp [flagged]⟩

theorem witness_DecodeOfEncodeIsTheInstruction :
    (Instr.ldSP 0xFFFF).wellFormed = true ∧ (Instr.ldB 0x00).wellFormed = true ∧ Instr.ldHLDecA.wellFormed = true := by decide

theorem witness_EncodeOfDecodeIsTheBytes : decode [0xCB, 0x78, 0x00] = .instr .bit7B [0x00] := by decide

theorem witness_StepRunsTheDecodedInstruction :
    (code 0x1FFD [0x01, 0x34, 0x12]).faultRecord = none ∧
    (∀ (k : Nat) (h : k < [0x01, 0x34, 0x12].length),
      (code 0x1FFD [0x01, 0x34, 0x12]).readU8 ((code 0x1FFD [0x01, 0x34, 0x12]).pc + BitVec.ofNat 16 k) =
        .ok ([0x01, 0x34, 0x12] : List Byte)[k]) ∧
    decode [0x01, 0x34, 0x12] = .instr (.ldBC 0x1234) [] ∧ (Instr.ldBC 0x1234).wellFormed = true :=
  ⟨rfl, fun k h => match k, h with
    | 0, _ => rfl
    | 1, _ => rfl
    | 2, _ => rfl, by decide, by decide⟩

/-- Every row of the table of R210 is met, and so is its end. -/
theorem witness_StepFaultsByTheDetectionTable :
    firstFaultByTable (code 0x2000 []) = some (.unimplementedMemoryRegion 0x2000 .read) ∧
    firstFaultByTable (code 0x1FFF [0xFF]) = some (.unknownOpcode 0xFF 0x1FFF) ∧
    firstFaultByTable (code 0x1FFF [0xCB]) = some (.unimplementedMemoryRegion 0x2000 .read) ∧
    firstFaultByTable (code 0x1FFE [0xCB, 0x7E]) = some (.unknownExtendedOpcode 0x7E 0x1FFF) ∧
    firstFaultByTable (flagged (code 0x9FFF [0x20]) true false false false) = some (.unimplementedMemoryRegion 0xA000 .read) ∧
    firstFaultByTable (code 0x1FFF [0x31]) = some (.unimplementedMemoryRegion 0x2001 .read) ∧
    firstFaultByTable (codeR 0 [0x32] { zeros with h := 0x7F, l := 0xFF }) = some (.unimplementedMemoryRegion 0x7FFF .write) ∧
    firstFaultByTable (codeR 0 [0xE2] { zeros with c := 0x7F }) = none ∧
    (code 0x2000 []).faultRecord = none ∧ (code 0x1FFF [0x31]).faultRecord = none := by decide

/-- For `NoStepRaisesInvalidRegisterWidth` and `EveryRequestKeepsLatchInv`. -/
theorem witness_LatchInv : State.reset.LatchInv ∧ latched.LatchInv :=
  ⟨nofun, nofun⟩

theorem witness_StepResponseAndStateAfter :
    (∃ t, step (code 0 [0xAF]) = .next t) ∧
    (step (code 0 [0xFF]) = .fault (.unknownOpcode 0xFF 0) ∧ (code 0 [0xFF]).faultRecord = none) ∧
    latched.faultRecord = some (.unknownOpcode 0xFF 0) := ⟨⟨_, rfl⟩, ⟨rfl, rfl⟩, rfl⟩

theorem witness_FaultingStepCommitsNothing :
    ∃ t, (codeR 0 [0x32] { zeros with h := 0x20 }).faultRecord = none ∧
      ifStep (codeR 0 [0x32] { zeros with h := 0x20 }) = (.fault (.unimplementedMemoryRegion 0x2000 .write), t) := ⟨_, rfl, rfl⟩

theorem witness_OnlyResetLeavesFaulted :
    latched.faultRecord = some (.unknownOpcode 0xFF 0) ∧
    ∀ image, .reset image ∉ [HostRequest.step, .writeU8 0 0xAF, .readU8 0x4000, .readU16 0xFFFF, .observe, .step] :=
  ⟨rfl, fun _ => by simp⟩

theorem witness_FaultedStateStartsNoSafeRun : latched.faulted = true := by decide

theorem witness_HostAccessTouchesOnlyMemory :
    (State.reset.readU8 0x9FFF = .ok 0) ∧ (State.reset.readU8 0xFF00 = .error (.unimplementedMemoryRegion 0xFF00 .read)) ∧
    (State.reset.readU16 0x1FFE = .ok 0) ∧ (State.reset.readU16 0x1FFF = .error (.unimplementedMemoryRegion 0x2000 .read)) ∧
    (State.reset.writeU8 0xFF80 1 = .error (.unimplementedMemoryRegion 0xFF80 .write)) ∧
    (∃ t, State.reset.writeU8 0x1FFF 1 = .ok t) := ⟨rfl, rfl, rfl, rfl, rfl, _, rfl⟩

/-- Every boundary of the map, on both sides. -/
theorem witness_BusMapDecidesEveryAccess :
    [0x0000, 0x1FFF, 0x2000, 0x7FFF, 0x8000, 0x9FFF, 0xA000, 0xFEFF, 0xFF00, 0xFF7F, 0xFF80, 0xFFFF].map region =
      [.ram, .ram, .unimplemented, .unimplemented, .vram, .vram, .unimplemented, .unimplemented, .io, .io, .unimplemented,
       .unimplemented] ∧
    (0x1FFF : Word).toNat ≤ 0x1FFF ∧ (0x8000 ≤ (0x9FFF : Word).toNat ∧ (0x9FFF : Word).toNat ≤ 0x9FFF) ∧
    (0xFF00 ≤ (0xFF7F : Word).toNat ∧ (0xFF7F : Word).toNat ≤ 0xFF7F) ∧
    ((0x2000 ≤ (0x7FFF : Word).toNat ∧ (0x7FFF : Word).toNat ≤ 0x7FFF) ∧
     (0xA000 ≤ (0xFEFF : Word).toNat ∧ (0xFEFF : Word).toNat ≤ 0xFEFF) ∧ 0xFF80 ≤ (0xFF80 : Word).toNat) := by decide

/-- For `EveryRequestKeepsMemoryInv`: the hypothesis holds at reset and with bytes in either array. -/
theorem witness_MemoryInv : State.reset.MemoryInv ∧ (code 0x9FFE [0x3E, 0x42]).MemoryInv ∧ (code 0 [0x32, 0x00, 0xAF]).MemoryInv := by
  unfold State.MemoryInv; decide

theorem witness_WritesByRegion : State.reset.MemoryInv ∧ region 0x1FFF = .ram ∧ region 0x9FFF = .vram ∧ region 0xFF7F = .io ∧
    region 0xFF80 = .unimplemented := by unfold State.MemoryInv; decide

theorem witness_ReadU16IsTwoReadsHighFirst :
    (State.reset.readU8 (0x1FFF + 1) = .error (.unimplementedMemoryRegion 0x2000 .read)) ∧
    (State.reset.readU8 (0xFFFF + 1) = .ok 0 ∧ State.reset.readU8 0xFFFF = .error (.unimplementedMemoryRegion 0xFFFF .read)) ∧
    (State.reset.readU8 (0x1FFE + 1) = .ok 0 ∧ State.reset.readU8 0x1FFE = .ok 0) := ⟨rfl, ⟨rfl, rfl⟩, rfl, rfl⟩

theorem witness_TwoWritesAreReadAsOneWord : State.reset.MemoryInv ∧ (region 0x1FFE = .ram ∧ region (0x1FFE + 1) = .ram) ∧
    (region 0x9FFE = .vram ∧ region (0x9FFE + 1) = .vram) := by unfold State.MemoryInv; decide

theorem witness_EveryStepKeepsMemoryInv :
    (codeR 0 [0x32] { zeros with a := 0x42, h := 0x80 }).MemoryInv ∧
    ∃ t, step (codeR 0 [0x32] { zeros with a := 0x42, h := 0x80 }) = .next t := by
  refine ⟨?_, _, rfl⟩; unfold State.MemoryInv; decide

theorem witness_InvariantsHoldAtReset : ∃ t, ifReset [0x31, 0xFE, 0xFF] = .next t := ⟨_, rfl⟩

theorem witness_EqualReadsAreEqualMemories :
    (code 0 [0xAF]).MemoryInv ∧ (codeR 0 [0xAF] { zeros with a := 1 }).MemoryInv ∧
    ∀ a, (code 0 [0xAF]).readU8 a = (codeR 0 [0xAF] { zeros with a := 1 }).readU8 a :=
  ⟨by unfold State.MemoryInv; decide, by unfold State.MemoryInv; decide, fun _ => rfl⟩

theorem witness_ResetGivesEveryPieceOfState :
    ([] : List Byte).length ≤ 8192 ∧ (List.replicate 8192 (0xFF : Byte)).length ≤ 8192 ∧
    8192 < (List.replicate 8193 (0xFF : Byte)).length := by
  rw [List.length_replicate, List.length_replicate]; decide

theorem witness_PairsAreTheirHalves :
    (RegName.HL, RegName.H, RegName.L) ∈ [(RegName.BC, RegName.B, RegName.C), (.DE, .D, .E), (.HL, .H, .L)] ∧
    State.reset.readReg8 .L = .ok 0 ∧ State.reset.readReg8 .H = .ok 0 := ⟨by decide, rfl, rfl⟩

theorem witness_RegisterWidthsAndTheirFault : RegName.A ∈ byteRegisters ∧ RegName.PC ∉ byteRegisters ∧ RegName.SP ∈ wordRegisters ∧
    RegName.PC ∉ wordRegisters := by decide

theorem witness_StackPointerIsWrittenByOneAndReadByNone :
    (∃ t, exec .ldHLDecA State.reset = .next t) ∧ ∀ d16, Instr.ldHLDecA ≠ .ldSP d16 := ⟨⟨_, rfl⟩, nofun⟩

/-- The opcode fetch, the immediate present, and the immediate missing. -/
theorem witness_LoadImmediate8 :
    ((code 0x2000 []).faultRecord = none ∧ (code 0x2000 []).readU8 0x2000 = .error (.unimplementedMemoryRegion 0x2000 .read)) ∧
    ((code 0x1FFE [0x06, 0xFF]).faultRecord = none ∧ (code 0x1FFE [0x06, 0xFF]).readU8 0x1FFE = .ok 0x06 ∧
      (code 0x1FFE [0x06, 0xFF]).readU8 (0x1FFE + 1) = .ok 0xFF) ∧
    ((code 0x1FFF [0x06]).faultRecord = none ∧ (code 0x1FFF [0x06]).readU8 0x1FFF = .ok 0x06 ∧
      (code 0x1FFF [0x06]).readU8 (0x1FFF + 1) = .error (.unimplementedMemoryRegion 0x2000 .read)) :=
  ⟨⟨rfl, rfl⟩, ⟨rfl, rfl, rfl⟩, rfl, rfl, rfl⟩

/-- Both immediate bytes present, the high byte missing, and (at an operand address no opcode can precede) the low byte alone. -/
theorem witness_LoadImmediate16 :
    ((code 0x1FFD [0x31, 0xFE, 0xFF]).faultRecord = none ∧ (code 0x1FFD [0x31, 0xFE, 0xFF]).readU8 0x1FFD = .ok 0x31 ∧
      (code 0x1FFD [0x31, 0xFE, 0xFF]).readU8 (0x1FFD + 1) = .ok 0xFE ∧ (code 0x1FFD [0x31, 0xFE, 0xFF]).readU8 (0x1FFD + 2) = .ok 0xFF) ∧
    ((code 0x1FFE [0x01]).faultRecord = none ∧ (code 0x1FFE [0x01]).readU8 0x1FFE = .ok 0x01 ∧
      (code 0x1FFE [0x01]).readU8 (0x1FFE + 2) = .error (.unimplementedMemoryRegion 0x2000 .read)) ∧
    (State.reset.readU8 (0xFFFE + 2) = .ok 0 ∧
      State.reset.readU8 (0xFFFE + 1) = .error (.unimplementedMemoryRegion 0xFFFF .read)) :=
  ⟨⟨rfl, rfl, rfl, rfl⟩, ⟨rfl, rfl, rfl⟩, rfl, rfl⟩

/-- `Z` clear and set, the offset byte present and missing. -/
theorem witness_RelativeBranch :
    State.reset.flags.z = false ∧ (flagged State.reset true false false false).flags.z = true ∧
    ((code 0x1FFE [0x20, 0x80]).faultRecord = none ∧ (code 0x1FFE [0x20, 0x80]).readU8 (code 0x1FFE [0x20, 0x80]).pc = .ok 0x20 ∧
      (code 0x1FFE [0x20, 0x80]).readU8 ((code 0x1FFE [0x20, 0x80]).pc + 1) = .ok 0x80 ∧ (code 0x1FFE [0x20, 0x80]).flags.z = false) ∧
    ((code 0x1FFF [0x20]).readU8 (code 0x1FFF [0x20]).pc = .ok 0x20 ∧
      (code 0x1FFF [0x20]).readU8 ((code 0x1FFF [0x20]).pc + 1) = .error (.unimplementedMemoryRegion 0x2000 .read)) :=
  ⟨rfl, rfl, ⟨rfl, rfl, rfl, rfl⟩, rfl, rfl⟩

/-- `HL` at the last address of each storing region, in IO, and at the first addresses that fault. -/
theorem witness_StoreAndDecrement :
    region (codeR 0 [0x32] { zeros with h := 0x1F, l := 0xFF }).regs.hl = .ram ∧
    region (codeR 0 [0x32] { zeros with h := 0x9F, l := 0xFF }).regs.hl = .vram ∧
    region (codeR 0 [0x32] { zeros with h := 0xFF, l := 0x7F }).regs.hl = .io ∧
    region (codeR 0 [0x32] { zeros with h := 0xFF, l := 0x80 }).regs.hl = .unimplemented ∧
    region (codeR 0 [0x32] { zeros with h := 0x20 }).regs.hl = .unimplemented ∧
    (codeR 0 [0x32] { zeros with h := 0x9F, l := 0xFF }).MemoryInv ∧
    (code 0 [0x32]).faultRecord = none ∧ (code 0 [0x32]).readU8 (code 0 [0x32]).pc = .ok 0x32 :=
  ⟨by decide, by decide, by decide, by decide, by decide, by unfold State.MemoryInv; decide, rfl, rfl⟩

/-- `C` on both sides of the boundary. -/
theorem witness_HighPageStore :
    (codeR 0 [0xE2] { zeros with c := 0x7F }).regs.c.toNat ≤ 0x7F ∧ 0x80 ≤ (codeR 0 [0xE2] { zeros with c := 0x80 }).regs.c.toNat ∧
    (codeR 0 [0xE2] { zeros with c := 0x80 }).faultRecord = none ∧
    (codeR 0 [0xE2] { zeros with c := 0x80 }).readU8 (codeR 0 [0xE2] { zeros with c := 0x80 }).pc = .ok 0xE2 :=
  ⟨by decide, by decide, rfl, rfl⟩

theorem witness_ExclusiveOrWithItself :
    (∃ t : State, t = { flagged (code 0 [0xAF]) true false false false with regs := zeros, pc := (code 0 [0xAF]).pc + 1 }) ∧
    (code 0 [0xAF]).faultRecord = none ∧ (code 0 [0xAF]).readU8 (code 0 [0xAF]).pc = .ok 0xAF := ⟨⟨_, rfl⟩, rfl, rfl⟩

/-- The extended opcode present at the end of RAM, and missing. -/
theorem witness_BitTests :
    ((code 0x1FFE [0xCB, 0x7F]).faultRecord = none ∧ (code 0x1FFE [0xCB, 0x7F]).readU8 (code 0x1FFE [0xCB, 0x7F]).pc = .ok 0xCB ∧
      (code 0x1FFE [0xCB, 0x7F]).readU8 ((code 0x1FFE [0xCB, 0x7F]).pc + 1) = .ok 0x7F) ∧
    ((code 0x1FFF [0xCB]).faultRecord = none ∧ (code 0x1FFF [0xCB]).readU8 (code 0x1FFF [0xCB]).pc = .ok 0xCB ∧
      (code 0x1FFF [0xCB]).readU8 ((code 0x1FFF [0xCB]).pc + 1) = .error (.unimplementedMemoryRegion 0x2000 .read)) :=
  ⟨⟨rfl, rfl, rfl⟩, rfl, rfl, rfl⟩

theorem witness_FlagTable :
    (∃ t, exec .xorA State.reset = .next t) ∧
    ((∃ t, exec .bit7H State.reset = .next t) ∧ testedRegister .bit7H = some .H ∧ State.reset.readReg8 .H = .ok 0) ∧
    ((∃ t, exec .ldHighCA State.reset = .next t) ∧ Instr.ldHighCA ≠ .xorA ∧ testedRegister .ldHighCA = none) ∧
    ((flagged State.reset false true true true).flags.z = State.reset.flags.z) ∧ ∀ e8, Instr.xorA ≠ .jrNZ e8 :=
  ⟨⟨_, rfl⟩, ⟨⟨_, rfl⟩, rfl, rfl⟩, ⟨⟨_, rfl⟩, nofun, rfl⟩, rfl, nofun⟩

theorem witness_WhatIsNotListedIsUnchanged :
    ((∃ t, exec .ldHLDecA State.reset = .next t) ∧ RegName.A ∈ byteRegisters ∧ RegName.A ∉ destinations .ldHLDecA ∧
      (∀ d16, Instr.ldHLDecA ≠ .ldSP d16) ∧ Instr.ldHLDecA ≠ .xorA ∧ testedRegister .ldHLDecA = none ∧
      storeAddress .ldHLDecA State.reset = some 0x0000 ∧ (0x0001 : Word) ≠ 0x0000) ∧
    (∃ t, exec (.ldBC 0xFFFF) State.reset = .next t) ∧ storeAddress (.ldBC 0xFFFF) State.reset = none :=
  ⟨⟨⟨_, rfl⟩, by decide, by decide, nofun, nofun, rfl, rfl, by decide⟩, ⟨_, rfl⟩, rfl⟩

theorem witness_OnlyStoreAndDecrementChangesMemory :
    (∃ t, step (code 0 [0xE2]) = .next t) ∧ (code 0 [0xE2]).readU8 (code 0 [0xE2]).pc ≠ .ok 0x32 :=
  ⟨⟨_, rfl⟩, by rw [show (code 0 [0xE2]).readU8 (code 0 [0xE2]).pc = .ok 0xE2 from rfl]; simp⟩

/-- Two states that differ in a byte no step of theirs reads. -/
theorem witness_StepReadsOnlyItsOwnBytes :
    code 0 [0x3E, 0x42, 0, 9] = { code 0 [0x3E, 0x42, 0, 7] with ram := (code 0 [0x3E, 0x42, 0, 9]).ram, vram := (code 0 [0x3E, 0x42, 0, 9]).vram } ∧
    fetch (code 0 [0x3E, 0x42, 0, 7]) = .ok { opcode := 0x3E, instr := .ldA 0x42 } ∧
    (∀ k : Nat, k < 3 → (code 0 [0x3E, 0x42, 0, 9]).readU8 (0 + BitVec.ofNat 16 k) = (code 0 [0x3E, 0x42, 0, 7]).readU8 (0 + BitVec.ofNat 16 k)) ∧
    (code 0 [0x3E, 0x42, 0, 9]).ram ≠ (code 0 [0x3E, 0x42, 0, 7]).ram :=
  ⟨rfl, rfl, fun k h => match k, h with
    | 0, _ => rfl
    | 1, _ => rfl
    | 2, _ => rfl, by decide⟩

theorem witness_SubtractAndCarryStayZero : (code 0 [0xCB, 0x7C]).FlagInv ∧ ∃ t, step (code 0 [0xCB, 0x7C]) = .next t :=
  ⟨⟨rfl, rfl⟩, _, rfl⟩

/-- An assigned and an unassigned byte stored just ahead, in RAM and in video RAM. -/
theorem witness_NextFetchSeesTheStore :
    ((codeR 0 [0x32, 0xFF] { zeros with a := 0xAF, l := 1 }).MemoryInv ∧
      (codeR 0 [0x32, 0xFF] { zeros with a := 0xAF, l := 1 }).faultRecord = none ∧
      (codeR 0 [0x32, 0xFF] { zeros with a := 0xAF, l := 1 }).readU8 0 = .ok 0x32 ∧
      (codeR 0 [0x32, 0xFF] { zeros with a := 0xAF, l := 1 }).regs.hl = 0 + 1 ∧ region 1 = .ram ∧ decode [0xAF] = .instr .xorA []) ∧
    (codeR 0x8000 [0x32] { zeros with a := 0x00, h := 0x80, l := 1 }).regs.hl = 0x8000 + 1 ∧ region 0x8001 = .vram ∧
    (0x00 : Byte) ∉ assignedFirstBytes :=
  ⟨⟨by unfold State.MemoryInv; decide, rfl, rfl, by decide, by decide, by decide⟩, by decide, by decide, by decide⟩

theorem witness_BranchFollowsTheLastFlagWriter :
    (∃ t, exec .xorA State.reset = .next t) ∧
    (testedRegister .bit7B = some .B ∧ (codeR 0 [] { zeros with b := 0x80 }).readReg8 .B = .ok 0x80 ∧
      (∃ t, exec .bit7B (codeR 0 [] { zeros with b := 0x80 }) = .next t) ∧ (0x80 : Byte).getLsbD 7 = true) ∧
    ((codeR 0 [] { zeros with b := 0x7F }).readReg8 .B = .ok 0x7F ∧ (0x7F : Byte).getLsbD 7 = false) ∧
    ∃ t, ifReset [0x20, 0xFE] = .next t := ⟨⟨_, rfl⟩, ⟨rfl, rfl, ⟨_, rfl⟩, rfl⟩, ⟨rfl, rfl⟩, _, rfl⟩

theorem witness_BitTestOfHComparesWithVramBase :
    (∃ t, exec .bit7H (codeR 0 [] { zeros with h := 0x80 }) = .next t ∧ t.flags.z = false) ∧
    ∃ t, exec .bit7H (codeR 0 [] { zeros with h := 0x7F, l := 0xFF }) = .next t ∧ t.flags.z = true := ⟨⟨_, rfl, rfl⟩, _, rfl, rfl⟩

theorem witness_LoadsCombineByHalves :
    ((fun w => Instr.ldHL w, fun v => Instr.ldH v, fun v => Instr.ldL v, Regs.hl) :
      (Word → Instr) × (Byte → Instr) × (Byte → Instr) × (Regs → Word)) ∈
      [(Instr.ldBC, Instr.ldB, Instr.ldC, Regs.bc), (.ldDE, .ldD, .ldE, Regs.de), (.ldHL, .ldH, .ldL, Regs.hl)] := by simp

/-- The ends of the three classes of video RAM. -/
theorem witness_VideoRamWritesAreClassified :
    [0x7FFF, 0x8000, 0x97FF, 0x9800, 0x9BFF, 0x9C00, 0x9FFF, 0xA000].map vramLabel =
      [none, some .characterRam, some .characterRam, some .bgMapData1, some .bgMapData1, some .bgMapData2, some .bgMapData2, none] := by
  decide

end Sys2Proof.Tests
end

section
/-! PROOFS. The sign extension of spec/00_scope.md R14 as arithmetic on two's complement numbers. -/

namespace Sys2Proof.Machine

/-- Bit 7 is the sign bit, and `0xFF00` is the upper byte it fills. -/
theorem sext16_eq_signExtend (v : Byte) : sext16 v = v.signExtend 16 := by
  have hsign : v.getLsbD 7 = v.msb := (BitVec.msb_eq_getLsbD_last v).symm
  have hlt : v.toNat < 256 := v.isLt
  have hupper : (0xFF00 : Word).toNat = 0xFF00 := rfl
  rw [sext16, hsign]
  cases hmsb : v.msb with
  | false => simp [BitVec.signExtend_eq_setWidth_of_msb_false hmsb]
  | true =>
    apply BitVec.eq_of_toNat_eq
    simp only [if_true, BitVec.toNat_add, BitVec.toNat_signExtend, BitVec.toNat_setWidth, hupper, hmsb]
    omega

/-- Settles O48: the sign extension is the 16-bit word of the signed number, and `BitVec.ofInt` carries integer sums to
wrapping sums. -/
theorem signedAdditionWraps : Obligations.SignedAdditionWraps := by
  intro a v
  calc a + sext16 v
      = BitVec.ofInt 16 a.toNat + BitVec.ofInt 16 v.toInt := by
        rw [sext16_eq_signExtend, BitVec.signExtend, BitVec.ofInt_natCast, BitVec.ofNat_toNat, BitVec.setWidth_eq]
    _ = BitVec.ofInt 16 (a.toNat + v.toInt) := (BitVec.ofInt_add _ _).symm

end Sys2Proof.Machine
end

section
/-! PROOFS. What a handler can do: a completing one by families, and the one kind of fault a handler raises. -/

namespace Sys2Proof.Machine

variable {i : Instr} {s t : State} {f : Fault}

/-- The effect of a handler that completes, by family: what a frame fact about all 22 instructions splits on. -/
inductive Effect (s : State) : Instr → State → Prop
  /-- A load of byte registers, the branch, or the high-RAM store, whose write is dropped: byte registers and `pc` alone. -/
  | registers {i : Instr} (regs : Regs) (pc : Word) (hxor : i ≠ .xorA) (hbit : testedRegister i = none) :
    Effect s i ((s.setRegs regs).setPc pc)
  /-- R150. -/
  | stackPointer (d16 : Word) : Effect s (.ldSP d16) ((s.setSp d16).setPc (s.pc + 3))
  /-- R170. -/
  | store {s1 : State} (hw : s.writeU8 s.regs.hl s.regs.a = .ok s1) :
    Effect s .ldHLDecA ((s1.setRegs (s.regs.setHL (s.regs.hl - 1))).setPc (s.pc + 1))
  /-- R180. -/
  | exclusiveOr : Effect s .xorA (((s.setRegs { s.regs with a := 0 }).setFlags
      { z := true, n := false, h := false, c := false }).setPc (s.pc + 1))
  /-- R181 to R187. -/
  | bitTest {i : Instr} {r : RegName} {v : Byte} (hi : testedRegister i = some r) (hv : s.readReg8 r = .ok v) :
    Effect s i ((s.setFlags (flagsAfterBit7 v s.flags)).setPc (s.pc + 2))

theorem exec_effect (h : exec i s = .next t) : Effect s i t := by
  cases i with
  | ldB _ | ldC _ | ldD _ | ldE _ | ldH _ | ldL _ | ldA _ | ldBC _ | ldDE _ | ldHL _ =>
    cases h; exact .registers _ _ nofun rfl
  | ldSP d16 => cases h; exact .stackPointer d16
  | jrNZ e8 => cases h; exact .registers s.regs _ nofun rfl
  | ldHighCA => rw [exec_ldHighCA_next h]; exact .registers s.regs _ nofun rfl
  | ldHLDecA =>
    obtain ⟨s1, hw, rfl⟩ := exec_ldHLDecA_next h
    exact .store hw
  | xorA =>
    rw [exec_xorA] at h
    cases h; exact .exclusiveOr
  | bit7B | bit7C | bit7D | bit7E | bit7H | bit7L | bit7A => cases h; exact .bitTest rfl rfl

theorem exec_next_faultRecord (h : exec i s = .next t) : t.faultRecord = s.faultRecord := by
  cases exec_effect h with
  | store hw => rw [writeU8_frame hw]; rfl
  | registers | stackPointer | exclusiveOr | bitTest => rfl

theorem exec_next_sp (h : exec i s = .next t) (hi : ∀ d16, i ≠ .ldSP d16) : t.sp = s.sp := by
  cases exec_effect h with
  | stackPointer d16 => exact absurd rfl (hi d16)
  | store hw => rw [writeU8_frame hw]; rfl
  | registers | exclusiveOr | bitTest => rfl

theorem exec_next_memory (h : exec i s = .next t) (hi : i ≠ .ldHLDecA) : t.ram = s.ram ∧ t.vram = s.vram := by
  cases exec_effect h with
  | store => exact absurd rfl hi
  | registers | stackPointer | exclusiveOr | bitTest => exact ⟨rfl, rfl⟩

theorem exec_next_flags (h : exec i s = .next t) (hxor : i ≠ .xorA) (hbit : testedRegister i = none) :
    t.flags = s.flags := by
  cases exec_effect h with
  | store hw => rw [writeU8_frame hw]; rfl
  | exclusiveOr => exact absurd rfl hxor
  | bitTest hi => simp [hi] at hbit
  | registers | stackPointer => rfl

theorem exec_next_flags_of_test {r : RegName} {v : Byte} (h : exec i s = .next t) (hr : testedRegister i = some r)
    (hv : s.readReg8 r = .ok v) : t.flags = flagsAfterBit7 v s.flags := by
  cases exec_effect h with
  | registers _ _ _ hbit => simp [hbit] at hr
  | stackPointer | store | exclusiveOr => cases hr
  | bitTest hi hv' =>
    cases hi.symm.trans hr
    cases hv'.symm.trans hv
    rfl

theorem exec_next_memoryInv (hi : s.MemoryInv) (h : exec i s = .next t) : t.MemoryInv := by
  cases exec_effect h with
  | store hw =>
    have hi1 := writeU8_memoryInv hi hw
    exact hi1
  | registers | stackPointer | exclusiveOr | bitTest => exact hi

/-- Only a store faults in its handler, and it reports its own address. -/
theorem exec_fault (h : exec i s = .fault f) :
    ∃ a, storeAddress i s = some a ∧ region a = .unimplemented ∧ f = .unimplementedMemoryRegion a .write := by
  cases i with
  | ldHLDecA =>
    cases hw : s.writeU8 s.regs.hl s.regs.a with
    | ok s1 => rw [exec_ldHLDecA_ok hw] at h; cases h
    | error g =>
      rw [exec_ldHLDecA_error hw] at h
      cases h
      exact ⟨_, rfl, writeU8_error hw⟩
  | ldHighCA =>
    rcases highPage_region s.regs.c with ⟨hr, _⟩ | ⟨hr, _⟩
    · rw [exec_ldHighCA_io hr] at h; cases h
    · rw [exec_ldHighCA_unimplemented hr] at h
      cases h
      exact ⟨_, rfl, hr, rfl⟩
  | ldB _ | ldC _ | ldD _ | ldE _ | ldH _ | ldL _ | ldA _ | ldBC _ | ldDE _ | ldHL _ | ldSP _ | jrNZ _ | xorA
  | bit7B | bit7C | bit7D | bit7E | bit7H | bit7L | bit7A => cases h

end Sys2Proof.Machine
end

section
/-! PROOFS. What a request can do to the state (spec/00_scope.md R8 to R11), and the invariants every request keeps. -/

namespace Sys2Proof.Machine

variable {s t : State} {f : Fault}

theorem ifReset_next {image : List Byte} (h : ifReset image = .next t) :
    image.length ≤ Config.ramSize ∧ t = State.reset.setRam (Memory.load 0 image) := by
  unfold ifReset at h
  split at h
  · exact ⟨of_decide_eq_true ‹_›, (Host.Outcome.next.inj h).symm⟩
  · cases h

/-- What one request makes of a state. -/
inductive Served (s : State) : State → Prop
  /-- A read, an observation, a refused reset, a faulting write, or a step of a `FAULTED` machine. -/
  | unchanged : Served s s
  | reset {image : List Byte} {t : State} (h : ifReset image = .next t) : Served s t
  | stepped {t : State} (h : step s = .next t) : Served s t
  | latched {f : Fault} (h : step s = .fault f) : Served s (s.latchFault f)
  | written {a : Word} {v : Byte} {t : State} (h : s.writeU8 a v = .ok t) : Served s t

theorem ifStep_served (s : State) : Served s (ifStep s).2 := by
  cases hr : s.faultRecord with
  | some f => rw [ifStep_of_record hr]; exact .unchanged
  | none =>
    cases hf : fetch s with
    | error f => rw [ifStep_of_fetch_error hr hf]; exact .latched (step_of_fetch_error hr hf)
    | ok x =>
      cases he : exec x.instr s with
      | next t => rw [ifStep_of_next hr hf he]; exact .stepped ((step_of_fetch hr hf).trans he)
      | fault f => rw [ifStep_of_fault hr hf he]; exact .latched ((step_of_fetch hr hf).trans he)
      | refused r => simp only [ifStep, hr, hf, he]; exact .unchanged

theorem serve_served (q : HostRequest) (s : State) : Served s (serve q s).2 := by
  cases q with
  | reset image =>
    simp only [serve]
    split
    · exact .reset ‹_›
    · exact .unchanged
    · exact .unchanged
  | step => exact ifStep_served s
  | readU8 a => simp only [serve]; split <;> exact .unchanged
  | readU16 a => simp only [serve]; split <;> exact .unchanged
  | writeU8 a v =>
    simp only [serve]
    split
    · exact .written ‹_›
    · exact .unchanged
  | observe => exact .unchanged

/-! The arrays. -/

theorem ifReset_memoryInv {image : List Byte} (h : ifReset image = .next t) : t.MemoryInv := by
  obtain ⟨hlen, rfl⟩ := ifReset_next h
  obtain ⟨_, hvram, _, hvramIn⟩ := reset_memoryInv
  refine ⟨Memory.load_wf 0 image, hvram, fun x hx => ?_, hvramIn⟩
  have hlt := (Memory.mem_load hx).2
  omega

/-- Settles O22: the fetch changes nothing, and of the handlers only the one store touches an array. -/
theorem everyStepKeepsMemoryInv : Obligations.EveryStepKeepsMemoryInv := by
  intro s t hi h
  obtain ⟨_, x, _, hx⟩ := step_next h
  exact exec_next_memoryInv hi hx

theorem served_memoryInv (hi : s.MemoryInv) (h : Served s t) : t.MemoryInv := by
  cases h with
  | unchanged | latched => exact hi
  | reset h => exact ifReset_memoryInv h
  | stepped h => exact everyStepKeepsMemoryInv s t hi h
  | written h => exact writeU8_memoryInv hi h

/-- Settles O23, by what a request can do to the state. -/
theorem everyRequestKeepsMemoryInv : Obligations.EveryRequestKeepsMemoryInv :=
  fun q s hi => served_memoryInv hi (serve_served q s)

/-! The latch. -/

/-- A fetch raises the faults of the two tables and of the bus, never a register access's. -/
theorem fetch_ne_invalidRegisterWidth (r : RegName) (w : Width) : fetch s ≠ .error (.invalidRegisterWidth r w) := by
  have hread : ∀ a, s.readU8 a ≠ .error (.invalidRegisterWidth r w) := fun a h => by cases (readU8_error h).1
  intro h
  rcases fetch_error h with h | ⟨op, _, h⟩
  · exact hread _ h
  · rcases fetchRow_error h with ⟨_, h⟩ | ⟨_, _, _, _, h⟩ | h | h
    · cases h
    · cases h
    · exact hread _ h
    · exact hread _ h

/-- Settles O11: a fault is the record, the fetch's, or a store's. -/
theorem noStepRaisesInvalidRegisterWidth : Obligations.NoStepRaisesInvalidRegisterWidth := by
  intro s r w hi h
  rcases step_fault h with hr | ⟨_, hf | ⟨x, _, hx⟩⟩
  · exact hi r w hr
  · exact fetch_ne_invalidRegisterWidth r w hf
  · obtain ⟨_, _, _, hf⟩ := exec_fault hx
    cases hf

theorem ifReset_latchInv {image : List Byte} (h : ifReset image = .next t) : t.LatchInv := by
  obtain ⟨_, rfl⟩ := ifReset_next h
  exact nofun

/-- The invariant speaks of the record alone. -/
theorem latchInv_of_faultRecord_eq (hi : s.LatchInv) (h : t.faultRecord = s.faultRecord) : t.LatchInv :=
  fun r w => h ▸ hi r w

theorem served_latchInv (hi : s.LatchInv) (h : Served s t) : t.LatchInv := by
  cases h with
  | unchanged => exact hi
  | reset h => exact ifReset_latchInv h
  | stepped h =>
    obtain ⟨_, x, _, hx⟩ := step_next h
    exact latchInv_of_faultRecord_eq hi (exec_next_faultRecord hx)
  | latched h =>
    intro r w hf
    cases hf
    exact noStepRaisesInvalidRegisterWidth s r w hi h
  | written h =>
    refine latchInv_of_faultRecord_eq hi ?_
    rw [writeU8_frame h]

/-- Settles O12: a record is set by a faulting step alone, and O11 says which fault that is not. -/
theorem everyRequestKeepsLatchInv : Obligations.EveryRequestKeepsLatchInv :=
  fun q s hi => served_latchInv hi (serve_served q s)

/-! Reset. -/

theorem ifReset_flagInv {image : List Byte} (h : ifReset image = .next t) : t.FlagInv := by
  obtain ⟨_, rfl⟩ := ifReset_next h
  exact ⟨rfl, rfl⟩

/-- Settles O24: `State.reset` is the reset with the empty image. -/
theorem invariantsHoldAtReset : Obligations.InvariantsHoldAtReset := by
  have himage : ∀ (image : List Byte) (t : State), ifReset image = .next t → t.MemoryInv ∧ t.FlagInv ∧ t.LatchInv :=
    fun _ _ h => ⟨ifReset_memoryInv h, ifReset_flagInv h, ifReset_latchInv h⟩
  exact ⟨himage [] State.reset rfl, himage⟩

end Sys2Proof.Machine
end

section
/-! PROOFS. Canonical arrays are determined by the reads of their bus addresses (spec/10_state.md R34). -/

namespace Sys2Proof.Machine

theorem Memory.read_of_within {m : Memory} {size k : Nat} (hm : m.within size) (hk : size ≤ k) :
    m.read k = Memory.unlisted := by
  induction m with
  | nil => rfl
  | cons x m ih =>
    have hx : x.1 < size := hm x (by simp)
    have hne : k ≠ x.1 := by omega
    simp only [Memory.read, hne, if_false]
    exact ih fun y hy => hm y (by simp [hy])

theorem Memory.ext_of_read_within {m m' : Memory} {size : Nat} (hm : m.wf) (hm' : m'.wf) (hin : m.within size)
    (hin' : m'.within size) (h : ∀ k, k < size → m.read k = m'.read k) : m = m' := by
  refine Memory.ext_of_read hm hm' fun k => ?_
  rcases Nat.lt_or_ge k size with hk | hk
  · exact h k hk
  · rw [Memory.read_of_within hin hk, Memory.read_of_within hin' hk]

/-- The bus address of a RAM index. -/
theorem readU8_ofNat_ram (s : State) {k : Nat} (hk : k < Config.ramSize) :
    s.readU8 (BitVec.ofNat 16 k) = .ok (s.ram.read k) := by
  have hk' : k < 8192 := hk
  have ha : (BitVec.ofNat 16 k).toNat = k := by rw [BitVec.toNat_ofNat]; omega
  rw [readU8_ram (region_eq_ram.2 (by omega)), ramIndex_eq, ha]

/-- The bus address of a video RAM index. -/
theorem readU8_ofNat_vram (s : State) {k : Nat} (hk : k < Config.vramSize) :
    s.readU8 (BitVec.ofNat 16 (0x8000 + k)) = .ok (s.vram.read k) := by
  have hk' : k < 8192 := hk
  have ha : (BitVec.ofNat 16 (0x8000 + k)).toNat = 0x8000 + k := by rw [BitVec.toNat_ofNat]; omega
  rw [readU8_vram (region_eq_vram.2 (by omega)), vramIndex_eq, ha, Nat.add_sub_cancel_left]

/-- Settles O25: every index below the size has its bus address, and canonical arrays that read alike are equal. -/
theorem equalReadsAreEqualMemories : Obligations.EqualReadsAreEqualMemories := by
  intro s t ⟨hsr, hsv, hsrIn, hsvIn⟩ ⟨htr, htv, htrIn, htvIn⟩ h
  constructor
  · refine Memory.ext_of_read_within hsr htr hsrIn htrIn fun k hk => ?_
    have hread := h (BitVec.ofNat 16 k)
    rw [readU8_ofNat_ram s hk, readU8_ofNat_ram t hk] at hread
    exact Except.ok.inj hread
  · refine Memory.ext_of_read_within hsv htv hsvIn htvIn fun k hk => ?_
    have hread := h (BitVec.ofNat 16 (0x8000 + k))
    rw [readU8_ofNat_vram s hk, readU8_ofNat_vram t hk] at hread
    exact Except.ok.inj hread

end Sys2Proof.Machine
end

section
/-! PROOFS. The register access primitives: their widths (spec/10_state.md R26, R27), and the pairs as their halves (R23). -/

namespace Sys2Proof.Machine

variable {s t : State} {r : RegName}

theorem mem_byteRegisters : r ∈ byteRegisters ↔ r.allows .w8 = true := by cases r <;> decide
theorem mem_wordRegisters : r ∈ wordRegisters ↔ r.allows .w16 = true := by cases r <;> decide

theorem readReg8_ok_allows {v : Byte} (h : s.readReg8 r = .ok v) : r.allows .w8 = true := by
  cases r <;> simp_all [State.readReg8, RegName.allows]
theorem writeReg8_ok_allows {v : Byte} (h : s.writeReg8 r v = .ok t) : r.allows .w8 = true := by
  cases r <;> simp_all [State.writeReg8, RegName.allows]
theorem readReg16_ok_allows {w : Word} (h : s.readReg16 r = .ok w) : r.allows .w16 = true := by
  cases r <;> simp_all [State.readReg16, RegName.allows]
theorem writeReg16_ok_allows {w : Word} (h : s.writeReg16 r w = .ok t) : r.allows .w16 = true := by
  cases r <;> simp_all [State.writeReg16, RegName.allows]

/-- An access that succeeds at allowed widths alone, and faults with the width's fault alone, is decided by the width. -/
theorem access_decided {α : Type} {access : Except Fault α} {w : Width} (hok : ∀ x, access = .ok x → r.allows w = true)
    (herror : ∀ f, access = .error f → f = .invalidRegisterWidth r w ∧ r.allows w = false) :
    (r.allows w = true → ∃ x, access = .ok x) ∧ (¬ r.allows w = true → access = .error (.invalidRegisterWidth r w)) := by
  cases access with
  | ok x => exact ⟨fun _ => ⟨x, rfl⟩, fun h => absurd (hok x rfl) h⟩
  | error f =>
    obtain ⟨rfl, hw⟩ := herror f rfl
    exact ⟨fun h => by simp [hw] at h, fun _ => rfl⟩

/-- Settles O29: each of the four accesses is decided by the width. -/
theorem registerWidthsAndTheirFault : Obligations.RegisterWidthsAndTheirFault := by
  intro s r v w
  rw [mem_byteRegisters, mem_wordRegisters]
  obtain ⟨read8, readFault8⟩ := access_decided (fun _ => readReg8_ok_allows (s := s) (r := r)) fun _ => readReg8_error
  obtain ⟨write8, writeFault8⟩ := access_decided (fun _ => writeReg8_ok_allows (s := s) (r := r) (v := v))
    fun _ => writeReg8_error
  obtain ⟨read16, readFault16⟩ := access_decided (fun _ => readReg16_ok_allows (s := s) (r := r)) fun _ => readReg16_error
  obtain ⟨write16, writeFault16⟩ := access_decided (fun _ => writeReg16_ok_allows (s := s) (r := r) (w := w))
    fun _ => writeReg16_error
  exact ⟨fun h => ⟨read8 h, write8 h⟩, fun h => ⟨readFault8 h, writeFault8 h⟩,
    fun h => ⟨read16 h, write16 h⟩, fun h => ⟨readFault16 h, writeFault16 h⟩⟩

/-- The three pairs with their halves, the high one first (R23). -/
def pairHalves : List (RegName × RegName × RegName) := [(.BC, .B, .C), (.DE, .D, .E), (.HL, .H, .L)]

/-- Membership as the three cases a proof splits on. -/
theorem mem_pairHalves {pair high low : RegName} : (pair, high, low) ∈ pairHalves ↔
    (pair = .BC ∧ high = .B ∧ low = .C) ∨ (pair = .DE ∧ high = .D ∧ low = .E) ∨ (pair = .HL ∧ high = .H ∧ low = .L) := by
  simp [pairHalves]

section pairs

variable {pair high low : RegName} (hp : (pair, high, low) ∈ pairHalves)
include hp

theorem high_ne_low : high ≠ low := by
  rcases mem_pairHalves.1 hp with ⟨_, rfl, rfl⟩ | ⟨_, rfl, rfl⟩ | ⟨_, rfl, rfl⟩ <;> decide

theorem halves_mem_byteRegisters : high ∈ byteRegisters ∧ low ∈ byteRegisters := by
  rcases mem_pairHalves.1 hp with ⟨_, rfl, rfl⟩ | ⟨_, rfl, rfl⟩ | ⟨_, rfl, rfl⟩ <;> decide

/-- A pair reads as its halves side by side. -/
theorem readReg16_of_halves {hi lo : Byte} (hhi : t.readReg8 high = .ok hi) (hlo : t.readReg8 low = .ok lo) :
    t.readReg16 pair = .ok (BitVec.ofNat 16 (hi.toNat * 256 + lo.toNat)) := by
  rw [← concat_eq_ofNat]
  rcases mem_pairHalves.1 hp with ⟨rfl, rfl, rfl⟩ | ⟨rfl, rfl, rfl⟩ | ⟨rfl, rfl, rfl⟩ <;> cases hhi <;> cases hlo <;> rfl

/-- A write of a pair sets its halves to the halves of the word. -/
theorem writeReg16_halves (s : State) (w : Word) : ∃ t, s.writeReg16 pair w = .ok t ∧
    t.readReg8 high = .ok (highByte w) ∧ t.readReg8 low = .ok (lowByte w) := by
  rcases mem_pairHalves.1 hp with ⟨rfl, rfl, rfl⟩ | ⟨rfl, rfl, rfl⟩ | ⟨rfl, rfl, rfl⟩ <;> exact ⟨_, rfl, rfl, rfl⟩

end pairs

/-- Settles O28: the byte written reads back, the other half is kept, and the pair reads as its halves. -/
theorem pairsAreTheirHalves : Obligations.PairsAreTheirHalves := by
  intro s pair high low hp
  obtain ⟨hhigh, hlow⟩ := halves_mem_byteRegisters hp
  have hne := high_ne_low hp
  refine ⟨fun w => ?_, fun v lo hlo => ?_, fun v hi hhi => ?_⟩
  · obtain ⟨t, ht, hhi, hlo⟩ := writeReg16_halves hp s w
    rw [highByte_eq_ofNat] at hhi
    rw [lowByte_eq_ofNat] at hlo
    exact ⟨t, ht, (writeReg16_ok ht).2, hhi, hlo⟩
  · obtain ⟨_, t, ht⟩ := (registerWidthsAndTheirFault s high v 0).1 hhigh
    obtain ⟨_, hsame, hother⟩ := writeReg8_ok ht
    exact ⟨t, ht, readReg16_of_halves hp hsame ((hother low hne.symm).trans hlo)⟩
  · obtain ⟨_, t, ht⟩ := (registerWidthsAndTheirFault s low v 0).1 hlow
    obtain ⟨_, hsame, hother⟩ := writeReg8_ok ht
    exact ⟨t, ht, readReg16_of_halves hp ((hother high hne).trans hhi) hsame⟩

end Sys2Proof.Machine
end

section
/-! PROOFS. What no instruction reads: `sp` (spec/10_state.md R25), and the flags but `Z` by the branch (R30). -/

namespace Sys2Proof.Machine

variable {s : State}

theorem writeU8_setSp (a : Word) (b : Byte) (v : Word) :
    (s.setSp v).writeU8 a b = (s.writeU8 a b).map fun t => t.setSp v := by
  unfold State.writeU8
  split <;> rfl

theorem writeU8_setFlags (a : Word) (b : Byte) (flags : Flags) :
    (s.setFlags flags).writeU8 a b = (s.writeU8 a b).map fun t => t.setFlags flags := by
  unfold State.writeU8
  split <;> rfl

/-- `LD (HL-),A` reads `H`, `L` and `A` alone: an edit that keeps the byte registers and passes through the write changes
nothing else of its outcome. -/
theorem sameOutcome_ldHLDecA {related : State → State → Prop} {edit : State → State} (hregs : (edit s).regs = s.regs)
    (hwrite : (edit s).writeU8 s.regs.hl s.regs.a = (s.writeU8 s.regs.hl s.regs.a).map edit)
    (hrelated : ∀ t : State, related ((t.setRegs (s.regs.setHL (s.regs.hl - 1))).setPc (s.pc + 1))
      (((edit t).setRegs (s.regs.setHL (s.regs.hl - 1))).setPc ((edit s).pc + 1))) :
    sameOutcome related (exec .ldHLDecA s) (exec .ldHLDecA (edit s)) := by
  cases hw : s.writeU8 s.regs.hl s.regs.a with
  | error f =>
    rw [exec_ldHLDecA_error hw, exec_ldHLDecA_error (f := f) (by rw [hregs, hwrite, hw]; rfl)]
    rfl
  | ok s1 =>
    rw [exec_ldHLDecA_ok hw, exec_ldHLDecA_ok (s1 := edit s1) (by rw [hregs, hwrite, hw]; rfl), hregs]
    exact hrelated s1

/-- `LD (C),A` reads `C` alone. -/
theorem sameOutcome_ldHighCA {related : State → State → Prop} {s' : State} (hregs : s'.regs = s.regs)
    (hrelated : related (s.setPc (s.pc + 1)) (s'.setPc (s'.pc + 1))) :
    sameOutcome related (exec .ldHighCA s) (exec .ldHighCA s') := by
  rcases highPage_region s.regs.c with ⟨hr, _⟩ | ⟨hr, _⟩
  · rw [exec_ldHighCA_io hr, exec_ldHighCA_io (by rw [hregs, hr])]
    exact hrelated
  · rw [exec_ldHighCA_unimplemented hr, exec_ldHighCA_unimplemented (by rw [hregs, hr]), hregs]
    rfl

/-- No handler reads `sp`. -/
theorem exec_ignores_sp (i : Instr) (s : State) (v : Word) :
    sameOutcome (fun t t' => t' = t ∨ t' = { t with sp := v }) (exec i s) (exec i (s.setSp v)) := by
  cases i with
  | ldSP d16 => exact .inl rfl
  | ldHLDecA => exact sameOutcome_ldHLDecA (edit := fun t => t.setSp v) rfl (writeU8_setSp _ _ v) fun _ => .inr rfl
  | ldHighCA => exact sameOutcome_ldHighCA rfl (.inr rfl)
  | ldB _ | ldC _ | ldD _ | ldE _ | ldH _ | ldL _ | ldA _ | ldBC _ | ldDE _ | ldHL _ | jrNZ _ | xorA
  | bit7B | bit7C | bit7D | bit7E | bit7H | bit7L | bit7A => exact .inr rfl

/-- Settles O30: the frame by the effects of the handlers, the noninterference handler by handler. -/
theorem stackPointerIsWrittenByOneAndReadByNone : Obligations.StackPointerIsWrittenByOneAndReadByNone :=
  ⟨rfl, fun _ _ => rfl, fun _ _ _ => exec_next_sp, exec_ignores_sp⟩

/-- No handler reads a flag, but the branch `Z`. -/
theorem exec_ignores_flags (i : Instr) (s : State) (flags : Flags)
    (hz : flags.z = s.flags.z ∨ ∀ e8, i ≠ .jrNZ e8) :
    sameOutcome (fun t t' => t' = { t with flags := t'.flags }) (exec i s) (exec i (s.setFlags flags)) := by
  cases i with
  | jrNZ e8 =>
    have hz : flags.z = s.flags.z := hz.resolve_right fun h => h e8 rfl
    rw [exec_jrNZ, exec_jrNZ, State.setFlags_flags, hz]
    rfl
  | ldHLDecA => exact sameOutcome_ldHLDecA (edit := fun t => t.setFlags flags) rfl (writeU8_setFlags _ _ flags) fun _ => rfl
  | ldHighCA => exact sameOutcome_ldHighCA rfl rfl
  | ldB _ | ldC _ | ldD _ | ldE _ | ldH _ | ldL _ | ldA _ | ldBC _ | ldDE _ | ldHL _ | ldSP _ | xorA
  | bit7B | bit7C | bit7D | bit7E | bit7H | bit7L | bit7A => rfl

/-- Settles O39: the writers by the effects of the handlers, the readers handler by handler. -/
theorem flagTable : Obligations.FlagTable := by
  refine ⟨fun i s t h => ⟨?_, fun r v => exec_next_flags_of_test h, exec_next_flags h⟩, exec_ignores_flags⟩
  rintro rfl
  rw [exec_xorA] at h
  cases h
  rfl

end Sys2Proof.Machine
end

section
/-! PROOFS. The one opcode whose step changes memory (spec/10_state.md R34, spec/20_memory.md R56 and R71). -/

namespace Sys2Proof.Machine

variable {s : State}

/-- Every instruction a row of the first-byte table can make is encoded with the row's byte first. -/
def StartsWith (byte0 : Byte) : Row → Prop
  | .op i => (encode i).head? = some byte0
  | .opD8 make => ∀ v, (encode (make v)).head? = some byte0
  | .opE8 make => ∀ v, (encode (make v)).head? = some byte0
  | .opD16 make => ∀ w, (encode (make w)).head? = some byte0
  | .cbXop => byte0 = 0xCB

theorem firstByteTable_startsWith : ∀ x ∈ firstByteTable, StartsWith x.1 x.2 := by
  simp [firstByteTable, StartsWith, encode]

theorem extendedTable_startsWith : ∀ x ∈ extendedTable, (encode x.2).head? = some 0xCB := by decide

/-- The opcode byte of a fetch is the first byte of what it fetched. -/
theorem encode_head_of_fetch {x : Fetched} (h : fetch s = .ok x) : (encode x.instr).head? = some x.opcode := by
  have hstart : ∀ row, firstByteRow x.opcode = some row → StartsWith x.opcode row := fun row hr =>
    firstByteTable_startsWith _ (firstByteRow_mem hr)
  obtain ⟨_, hrest⟩ := fetch_ok h
  rcases fetchRow_ok hrest with hr | ⟨make, v, hr, _, hmake⟩ | ⟨make, v, hr, _, hmake⟩ |
      ⟨make, high, low, hr, _, _, hmake⟩ | ⟨xop, hr, _, hx⟩
  · exact hstart _ hr
  · rw [hmake]; exact hstart _ hr v
  · rw [hmake]; exact hstart _ hr v
  · rw [hmake]; exact hstart _ hr _
  · rw [show x.opcode = 0xCB from hstart _ hr]
    exact extendedTable_startsWith _ (extendedInstr_mem hx)

/-- Settles O41: `LD (HL-),A` is the one handler that changes an array, and its opcode is 0x32. -/
theorem onlyStoreAndDecrementChangesMemory : Obligations.OnlyStoreAndDecrementChangesMemory := by
  intro s t h hop
  obtain ⟨_, x, hf, hx⟩ := step_next h
  refine exec_next_memory hx fun hi => hop ?_
  have hhead := encode_head_of_fetch hf
  rw [hi] at hhead
  rw [(fetch_ok hf).1, ← Option.some.inj hhead]

end Sys2Proof.Machine
end

section
/-! PROOFS. The bus map and its three operations (spec/20_memory.md R51 to R62), and the host's accesses between steps (R70). -/

namespace Sys2Proof.Machine

variable {s t : State} {a : Word} {v : Byte}

theorem readU8_of_unreadable (hram : region a ≠ .ram) (hvram : region a ≠ .vram) :
    s.readU8 a = .error (.unimplementedMemoryRegion a .read) := by
  cases h : s.readU8 a with
  | error f => rw [(readU8_error h).1]
  | ok v =>
    rcases readU8_ok h with ⟨hr, _⟩ | ⟨hr, _⟩
    · exact absurd hr hram
    · exact absurd hr hvram

theorem writeU8_of_ram (h : region a = .ram) : s.writeU8 a v = .ok (s.setRam (s.ram.write (ramIndex a) v)) := by
  simp only [State.writeU8, h]
theorem writeU8_of_vram (h : region a = .vram) : s.writeU8 a v = .ok (s.setVram (s.vram.write (vramIndex a) v)) := by
  simp only [State.writeU8, h]
theorem writeU8_of_io (h : region a = .io) : s.writeU8 a v = .ok s := by simp only [State.writeU8, h]

/-- Settles O18: each range of addresses is a region, and the region decides the access. -/
theorem busMapDecidesEveryAccess : Obligations.BusMapDecidesEveryAccess := by
  intro s a v
  refine ⟨fun h => ?_, fun hlo hhi => ?_, fun hlo hhi => ?_, fun h => ?_⟩
  · have hr : region a = .ram := region_eq_ram.2 (by omega)
    rw [readU8_ram hr, writeU8_of_ram hr, ramIndex_eq]
    exact ⟨rfl, rfl⟩
  · have hr : region a = .vram := region_eq_vram.2 (by omega)
    exact ⟨readU8_vram hr, writeU8_of_vram hr⟩
  · have hr : region a = .io := region_eq_io.2 ⟨hlo, hhi⟩
    exact ⟨readU8_of_unreadable (by simp [hr]) (by simp [hr]), writeU8_of_io hr⟩
  · have hr : region a = .unimplemented := region_eq_unimplemented.2 h
    exact ⟨readU8_of_unreadable (by simp [hr]) (by simp [hr]), writeU8_of_unimplemented hr⟩

/-- Settles O19, by the region of the address: the array law for the byte, the bus laws for the reads. -/
theorem writesByRegion : Obligations.WritesByRegion := by
  intro s a v hi
  have ⟨hram, hvram, _, _⟩ := hi
  refine ⟨fun hr => ?_, fun hr => ?_, fun hr => ?_, writeU8_of_unimplemented⟩
  · have hw := writeU8_of_ram (s := s) (v := v) hr
    refine ⟨_, hw, ?_, readU8_writeU8_same hi hw (by simp [hr]), fun b => readU8_writeU8_other hw, rfl⟩
    rw [State.setRam_ram, ramIndex_eq, Memory.read_write_same hram]
  · have hw := writeU8_of_vram (s := s) (v := v) hr
    refine ⟨_, hw, ?_, readU8_writeU8_same hi hw (by simp [hr]), fun b => readU8_writeU8_other hw, rfl⟩
    rw [State.setVram_vram, vramIndex_eq, Memory.read_write_same hvram]
  · exact ⟨writeU8_of_io hr, readU8_of_unreadable (by simp [hr]) (by simp [hr])⟩

theorem readU16_of_high_error {f : Fault} (h : s.readU8 (a + 1) = .error f) : s.readU16 a = .error f := by
  simp only [State.readU16, h, bind, Except.bind]

theorem readU16_of_low_error {high : Byte} {f : Fault} (hh : s.readU8 (a + 1) = .ok high) (hl : s.readU8 a = .error f) :
    s.readU16 a = .error f := by
  simp only [State.readU16, hh, hl, bind, Except.bind]

theorem readU16_of_ok {low high : Byte} (hh : s.readU8 (a + 1) = .ok high) (hl : s.readU8 a = .ok low) :
    s.readU16 a = .ok (BitVec.ofNat 16 (high.toNat * 256 + low.toNat)) := by
  simp only [State.readU16, hh, hl, bind, Except.bind, pure, Except.pure, leWord, concat_eq_ofNat]

/-- Settles O20: at 0xFFFF the high byte is RAM's first, so it is the low byte's address that faults. -/
theorem readU16IsTwoReadsHighFirst : Obligations.ReadU16IsTwoReadsHighFirst := by
  intro s a
  refine ⟨fun f => readU16_of_high_error, fun hi f => readU16_of_low_error, fun hi lo => readU16_of_ok, ?_⟩
  have hhigh : s.readU8 (0xFFFF + 1) = .ok (s.ram.read 0) := readU8_ram (by decide)
  exact readU16_of_low_error hhigh (readU8_of_unreadable (by decide) (by decide))

/-- A write faults in the unimplemented region alone, whatever the state. -/
theorem writeU8_ok_iff : (∃ t, s.writeU8 a v = .ok t) ↔ region a ≠ .unimplemented := by
  constructor
  · rintro ⟨t, h⟩ hr
    rw [writeU8_of_unimplemented hr] at h
    cases h
  · intro hr
    cases h : s.writeU8 a v with
    | ok t => exact ⟨t, rfl⟩
    | error f => exact absurd (writeU8_error h).1 hr

/-- A byte written to RAM or VRAM is accepted and reads back. -/
theorem writeU8_stored (hi : s.MemoryInv) (v : Byte) (h : region a = .ram ∨ region a = .vram) :
    ∃ t, s.writeU8 a v = .ok t ∧ t.readU8 a = .ok v := by
  obtain ⟨hio, hun⟩ : region a ≠ .io ∧ region a ≠ .unimplemented := by rcases h with h | h <;> simp [h]
  obtain ⟨t, hw⟩ : ∃ t, s.writeU8 a v = .ok t := writeU8_ok_iff.2 hun
  exact ⟨t, hw, readU8_writeU8_same hi hw hio⟩

/-- Settles O21: the second write leaves the first byte, and the word is the two bytes. -/
theorem twoWritesAreReadAsOneWord : Obligations.TwoWritesAreReadAsOneWord := by
  intro s a b0 b1 hi ha ha1
  obtain ⟨s1, hw0, hr0⟩ := writeU8_stored hi b0 ha
  obtain ⟨s2, hw1, hr1⟩ := writeU8_stored (writeU8_memoryInv hi hw0) b1 ha1
  have hne : a ≠ a + 1 := by bv_omega
  exact ⟨s1, s2, hw0, hw1, readU16_of_ok hr1 ((readU8_writeU8_other hw1 hne).trans hr0)⟩

/-- Settles O17: each access is served by its bus operation, and a write changes the two arrays alone. -/
theorem hostAccessTouchesOnlyMemory : Obligations.HostAccessTouchesOnlyMemory := by
  intro s a v
  have hframe : ∀ t, s.writeU8 a v = .ok t → t.regs = s.regs ∧ t.sp = s.sp ∧ t.pc = s.pc ∧ t.flags = s.flags ∧
      t.faultRecord = s.faultRecord := fun t h => by
    rw [writeU8_frame h]
    exact ⟨rfl, rfl, rfl, rfl, rfl⟩
  refine ⟨rfl, fun b h => ?_, fun f h => ?_, fun w h => ?_, fun f h => ?_, fun f h => ?_, fun t h => ⟨?_, hframe t h⟩⟩ <;>
    simp only [serve, h]

end Sys2Proof.Machine
end

section
/-! PROOFS. The labels of video RAM writes (spec/20_memory.md R58) and of address ranges (R59). -/

namespace Sys2Proof.Machine

/-- The first and the last offset of each part of video RAM (R58). -/
def VramLabel.bounds : VramLabel → Nat × Nat
  | .characterRam => (0x0000, 0x17FF)
  | .bgMapData1 => (0x1800, 0x1BFF)
  | .bgMapData2 => (0x1C00, 0x1FFF)

theorem vramOffsetLabel_eq_some {offset : Nat} {l : VramLabel} :
    vramOffsetLabel offset = some l ↔ l.bounds.1 ≤ offset ∧ offset ≤ l.bounds.2 := by
  unfold vramOffsetLabel
  cases l with
  | characterRam | bgMapData1 | bgMapData2 =>
    simp only [VramLabel.bounds]
    (repeat' split) <;> simp only [Option.some.injEq, reduceCtorEq, true_iff, false_iff] <;> omega

theorem vramLabel_eq_some {a : Word} {l : VramLabel} :
    vramLabel a = some l ↔ (0x8000 ≤ a.toNat ∧ a.toNat < 0xA000) ∧ vramOffsetLabel (a.toNat - 0x8000) = some l := by
  rw [← region_eq_vram, ← vramIndex_eq]
  unfold vramLabel
  split <;> simp_all

/-- Settles O49: the class of an address is that of its offset into video RAM. -/
theorem videoRamWritesAreClassified : Obligations.VideoRamWritesAreClassified := by
  intro a
  refine ⟨?_, ?_, ?_, fun offset => ⟨?_, ?_, ?_⟩⟩ <;>
    simp only [vramLabel_eq_some, vramOffsetLabel_eq_some, VramLabel.bounds] <;> omega

/-- The first and the last address of each part in the table of R59. -/
def RangeLabel.bounds : RangeLabel → Nat × Nat
  | .restartInterruptVectors => (0x0000, 0x00FF)
  | .cartridgeHeader => (0x0100, 0x014F)
  | .cartridgeRomBank0 => (0x0150, 0x3FFF)
  | .cartridgeRomSwitchable => (0x4000, 0x7FFF)
  | .videoRam => (0x8000, 0x9FFF)
  | .cartridgeRamBank => (0xA000, 0xBFFF)
  | .internalRamBank0 => (0xC000, 0xCFFF)
  | .internalRamBanks1to7 => (0xD000, 0xDFFF)
  | .echoRam => (0xE000, 0xFDFF)
  | .oam => (0xFE00, 0xFE9F)
  | .unusable => (0xFEA0, 0xFEFF)
  | .hardwareIo => (0xFF00, 0xFF7F)
  | .zeroPage => (0xFF80, 0xFFFE)
  | .interruptEnable => (0xFFFF, 0xFFFF)

theorem platformRange_eq_iff {a : Word} {l : RangeLabel} :
    platformRange a = l ↔ l.bounds.1 ≤ a.toNat ∧ a.toNat ≤ l.bounds.2 := by
  constructor
  · rintro rfl
    have hb := platformRange_bounds a
    generalize platformRange a = l at hb ⊢
    cases l <;> simp only [RangeLabel.bounds] at hb ⊢ <;> omega
  · rintro ⟨hlo, hhi⟩
    cases l <;> simp only [RangeLabel.bounds] at hlo hhi <;> simp (disch := omega) only [platformRange, if_neg, if_pos]

/-- Settles O50: a label is given exactly in its part of the table, as far as that lies outside RAM. -/
theorem rangeLabelsNameAddressesOutsideRam : Obligations.RangeLabelsNameAddressesOutsideRam := by
  intro a
  have ha : a.toNat < 0x10000 := a.isLt
  refine ⟨rangeLabel_eq_none, ?_⟩
  simp only [ne_eq, rangeLabel_eq_some, platformRange_eq_iff, RangeLabel.bounds]
  and_intros <;> omega

end Sys2Proof.Machine
end

section
/-! PROOFS. What a step reads of memory: the bytes of its own instruction (spec/20_memory.md R64), as they are at the fetch (R67). -/

namespace Sys2Proof.Machine

variable {s s' : State} {p : Word} {op : Byte} {i : Instr}

/-- The bytes a fetch may read, the first one counted, by the row of the first byte (R91). -/
def fetchLength : Option Row → Nat
  | none | some (.op _) => 1
  | some (.opD8 _) | some (.opE8 _) | some .cbXop => 2
  | some (.opD16 _) => 3

theorem fetchLength_bounds (row : Option Row) : 0 < fetchLength row ∧ fetchLength row ≤ 3 := by
  match row with
  | none | some (.op _) | some (.opD8 _) | some (.opE8 _) | some (.opD16 _) | some .cbXop => simp [fetchLength]

/-- Every instruction a row can make is as long as its format (R92). -/
def MakesLength : Row → Prop
  | .op i => i.length = 1
  | .opD8 make => ∀ v, (make v).length = 2
  | .opE8 make => ∀ v, (make v).length = 2
  | .opD16 make => ∀ w, (make w).length = 3
  | .cbXop => True

theorem firstByteTable_makesLength : ∀ x ∈ firstByteTable, MakesLength x.2 := by
  simp [firstByteTable, MakesLength, Instr.length]

theorem extendedTable_length : ∀ x ∈ extendedTable, x.2.length = 2 := by decide

/-- A fetched instruction is as long as the row of its first byte says. -/
theorem length_of_fetch {x : Fetched} (h : fetch s = .ok x) :
    x.instr.length = fetchLength (firstByteRow x.opcode) := by
  have hlen : ∀ row, firstByteRow x.opcode = some row → MakesLength row := fun row hr =>
    firstByteTable_makesLength _ (firstByteRow_mem hr)
  obtain ⟨_, hrest⟩ := fetch_ok h
  rcases fetchRow_ok hrest with hr | ⟨make, v, hr, _, hmake⟩ | ⟨make, v, hr, _, hmake⟩ |
      ⟨make, high, low, hr, _, _, hmake⟩ | ⟨xop, hr, _, hx⟩
  · rw [hr]; exact hlen _ hr
  · rw [hr, hmake]; exact hlen _ hr v
  · rw [hr, hmake]; exact hlen _ hr v
  · rw [hr, hmake]; exact hlen _ hr _
  · rw [hr]; exact extendedTable_length _ (extendedInstr_mem hx)

/-- Two states read the same bytes from `p` on, `n` of them. -/
def SameBytes (s s' : State) (p : Word) (n : Nat) : Prop :=
  ∀ k : Nat, k < n → s'.readU8 (p + BitVec.ofNat 16 k) = s.readU8 (p + BitVec.ofNat 16 k)

theorem SameBytes.first {n : Nat} (h : SameBytes s s' p n) (hn : 0 < n) : s'.readU8 p = s.readU8 p := by
  simpa using h 0 hn

theorem SameBytes.mono {n m : Nat} (h : SameBytes s s' p n) (hm : m ≤ n) : SameBytes s s' p m :=
  fun k hk => h k (Nat.lt_of_lt_of_le hk hm)

/-- What follows the first byte is read from the row's bytes alone. -/
theorem fetchRow_congr {row : Option Row} (h : SameBytes s s' p (fetchLength row)) :
    fetchRow s' p op row = fetchRow s p op row := by
  match row with
  | none | some (.op _) => rfl
  | some (.opD8 _) | some (.opE8 _) | some .cbXop =>
    have h1 : s'.readU8 (p + 1) = s.readU8 (p + 1) := h 1 (by simp [fetchLength])
    simp only [fetchRow, h1]
  | some (.opD16 _) =>
    have h1 : s'.readU8 (p + 1) = s.readU8 (p + 1) := h 1 (by simp [fetchLength])
    have h2 : s'.readU8 (p + 2) = s.readU8 (p + 2) := h 2 (by simp [fetchLength])
    simp only [fetchRow, State.readU16, add_one_add_one, h1, h2]

/-- A fetch reads the bytes of its row alone. -/
theorem fetch_congr (hpc : s'.pc = s.pc) (hfirst : s'.readU8 s.pc = s.readU8 s.pc)
    (h : ∀ op, s.readU8 s.pc = .ok op → SameBytes s s' s.pc (fetchLength (firstByteRow op))) :
    fetch s' = fetch s := by
  cases hop : s.readU8 s.pc with
  | error f => rw [fetch_of_opcode_error hop, fetch_of_opcode_error (by rw [hpc, hfirst, hop])]
  | ok op =>
    rw [fetch_of_opcode hop, fetch_of_opcode (op := op) (by rw [hpc, hfirst, hop]), fetchRest, fetchRest, hpc,
      fetchRow_congr (h op hop)]

/-- Two states that differ in nothing but their arrays. -/
def SameButMemory (s s' : State) : Prop := s' = { s with ram := s'.ram, vram := s'.vram }

/-- No handler reads an array. -/
theorem exec_ignores_memory (i : Instr) (s : State) (ram vram : Memory) :
    sameOutcome SameButMemory (exec i s) (exec i ((s.setRam ram).setVram vram)) := by
  cases i with
  | ldHLDecA =>
    cases hw : s.writeU8 s.regs.hl s.regs.a with
    | error f =>
      obtain ⟨hr, rfl⟩ := writeU8_error hw
      rw [exec_ldHLDecA_error hw, exec_ldHLDecA_error (s := (s.setRam ram).setVram vram) (writeU8_of_unimplemented hr)]
      rfl
    | ok s1 =>
      obtain ⟨s1', hw'⟩ : ∃ s1', ((s.setRam ram).setVram vram).writeU8 s.regs.hl s.regs.a = .ok s1' :=
        writeU8_ok_iff.2 (writeU8_ok_iff.1 ⟨s1, hw⟩)
      rw [exec_ldHLDecA_ok hw, exec_ldHLDecA_ok (s := (s.setRam ram).setVram vram) hw', writeU8_frame hw, writeU8_frame hw']
      rfl
  | ldHighCA => exact sameOutcome_ldHighCA rfl rfl
  | ldB _ | ldC _ | ldD _ | ldE _ | ldH _ | ldL _ | ldA _ | ldBC _ | ldDE _ | ldHL _ | ldSP _ | jrNZ _ | xorA
  | bit7B | bit7C | bit7D | bit7E | bit7H | bit7L | bit7A => rfl

theorem step_sameButMemory (h : SameButMemory s s') (hf : fetch s' = fetch s) :
    sameOutcome SameButMemory (step s) (step s') := by
  have hrec : s'.faultRecord = s.faultRecord := by rw [h]
  cases hr : s.faultRecord with
  | some f => rw [step_of_record hr, step_of_record (hrec.trans hr)]; rfl
  | none =>
    cases hx : fetch s with
    | error f => rw [step_of_fetch_error hr hx, step_of_fetch_error (hrec.trans hr) (hf.trans hx)]; rfl
    | ok x =>
      rw [step_of_fetch hr hx, step_of_fetch (hrec.trans hr) (hf.trans hx)]
      rw [h]
      exact exec_ignores_memory x.instr s s'.ram s'.vram

/-- Settles O42: the fetch reads its row's bytes alone, which are the instruction's, and no handler reads an array. -/
theorem stepReadsOnlyItsOwnBytes : Obligations.StepReadsOnlyItsOwnBytes := by
  refine ⟨fun s s' op i h hx hbytes => ?_, fun s s' h hbytes => ?_⟩
  · have hlen : i.length = fetchLength (firstByteRow op) := length_of_fetch hx
    have hpos : 0 < i.length := hlen ▸ (fetchLength_bounds _).1
    refine step_sameButMemory h (fetch_congr (by rw [h]) (SameBytes.first hbytes hpos) fun op' hop => ?_)
    cases hop.symm.trans (fetch_ok hx).1
    rw [← hlen]
    exact hbytes
  · exact step_sameButMemory h (fetch_congr (by rw [h]) (SameBytes.first hbytes (by decide)) fun op _ =>
      SameBytes.mono hbytes (fetchLength_bounds _).2)

/-- A one-byte instruction is run as soon as its byte is at `pc`. -/
theorem step_of_op (hr : s.faultRecord = none) (h : s.readU8 s.pc = .ok op) (hrow : firstByteRow op = some (.op i)) :
    step s = exec i s :=
  step_of_fetch hr (fetch_of_row h hrow)

theorem step_of_unassigned (hr : s.faultRecord = none) (h : s.readU8 s.pc = .ok op) (hop : op ∉ assignedFirstBytes) :
    step s = .fault (.unknownOpcode op s.pc) :=
  step_of_fetch_error hr (fetch_of_row h (firstByteRow_eq_none.2 hop))

/-- A byte that is an instruction by itself is in a row of the format `OP`. -/
theorem firstByteRow_of_decode_singleton (h : decode [op] = .instr i []) : firstByteRow op = some (.op i) := by
  rw [decode_cons] at h
  match hrow : firstByteRow op with
  | some (.op j) => rw [hrow] at h; cases h; rfl
  | none | some (.opD8 _) | some (.opE8 _) | some (.opD16 _) | some .cbXop => rw [hrow] at h; cases h

/-- Settles O44: the store is read back at the new `pc`, and the step there goes by the row of that byte. -/
theorem nextFetchSeesTheStore : Obligations.NextFetchSeesTheStore := by
  intro s hi hrec hop hhl hregion
  obtain ⟨s1, hw, hread⟩ := writeU8_stored hi s.regs.a hregion
  have hexec := exec_ldHLDecA_ok hw
  have hrec1 := (exec_next_faultRecord hexec).trans hrec
  rw [hhl] at hread
  exact ⟨_, (step_of_op hrec hop firstByteRow_32).trans hexec, hread,
    fun i hdec => step_of_op hrec1 hread (firstByteRow_of_decode_singleton hdec), step_of_unassigned hrec1 hread⟩

end Sys2Proof.Machine
end

section
/-! PROOFS. Decoding and encoding are each other's inverse, and every pair of bytes has its one answer (spec/30_encoding.md
sections 1 to 6: R91, R92, R94, R95, R98, R99, R102). -/

namespace Sys2Proof.Machine

variable {s t : State} {i : Instr} {op : Byte} {bytes rest : List Byte}

/-! What the decoder answers, by the row of the first byte. -/

theorem decode_op (hrow : firstByteRow op = some (.op i)) (rest : List Byte) : decode (op :: rest) = .instr i rest := by
  rw [decode_cons, hrow]; rfl

theorem decode_opD8 {make : Byte → Instr} (hrow : firstByteRow op = some (.opD8 make)) (d8 : Byte) (rest : List Byte) :
    decode (op :: d8 :: rest) = .instr (make d8) rest := by
  rw [decode_cons, hrow]; rfl

theorem decode_opE8 {make : Byte → Instr} (hrow : firstByteRow op = some (.opE8 make)) (e8 : Byte) (rest : List Byte) :
    decode (op :: e8 :: rest) = .instr (make e8) rest := by
  rw [decode_cons, hrow]; rfl

theorem decode_opD16 {make : Word → Instr} (hrow : firstByteRow op = some (.opD16 make)) (low high : Byte)
    (rest : List Byte) : decode (op :: low :: high :: rest) = .instr (make (concat high low)) rest := by
  rw [decode_cons, hrow]; rfl

theorem decode_prefix (rest : List Byte) : decode (0xCB :: rest) = decodeRow 0xCB (some .cbXop) rest := rfl

theorem decode_prefixed {byte1 : Byte} (hx : extendedInstr byte1 = some i) (rest : List Byte) :
    decode (0xCB :: byte1 :: rest) = .instr i rest := by
  rw [decode_prefix, decodeRow, hx]

theorem decode_unassigned (hop : op ∉ assignedFirstBytes) (rest : List Byte) :
    decode (op :: rest) = .unknownOpcode op := by
  rw [decode_cons, firstByteRow_eq_none.2 hop, decodeRow]

theorem decode_prefixed_unassigned {byte1 : Byte} (hx : byte1 ∉ assignedExtendedBytes) (rest : List Byte) :
    decode (0xCB :: byte1 :: rest) = .unknownExtendedOpcode byte1 := by
  rw [decode_prefix, decodeRow, extendedInstr_eq_none.2 hx]

/-- All the decoder can have read when it answers an instruction, by the row. -/
theorem decodeRow_instr {row : Option Row} (h : decodeRow op row bytes = .instr i rest) :
    (row = some (.op i) ∧ bytes = rest) ∨
    (∃ make d8, row = some (.opD8 make) ∧ bytes = d8 :: rest ∧ i = make d8) ∨
    (∃ make e8, row = some (.opE8 make) ∧ bytes = e8 :: rest ∧ i = make e8) ∨
    (∃ make low high, row = some (.opD16 make) ∧ bytes = low :: high :: rest ∧ i = make (concat high low)) ∨
    (∃ byte1, row = some .cbXop ∧ bytes = byte1 :: rest ∧ extendedInstr byte1 = some i) := by
  match row, bytes with
  | none, _ | some (.opD8 _), [] | some (.opE8 _), [] | some (.opD16 _), [] | some (.opD16 _), [_] | some .cbXop, [] =>
    cases h
  | some (.op j), _ => cases h; exact .inl ⟨rfl, rfl⟩
  | some (.opD8 make), d8 :: _ => cases h; exact .inr (.inl ⟨make, d8, rfl, rfl, rfl⟩)
  | some (.opE8 make), e8 :: _ => cases h; exact .inr (.inr (.inl ⟨make, e8, rfl, rfl, rfl⟩))
  | some (.opD16 make), low :: high :: _ => cases h; exact .inr (.inr (.inr (.inl ⟨make, low, high, rfl, rfl, rfl⟩)))
  | some .cbXop, byte1 :: _ =>
    cases hx : extendedInstr byte1 with
    | none => rw [decodeRow, hx] at h; cases h
    | some j =>
      rw [decodeRow, hx] at h
      cases h
      exact .inr (.inr (.inr (.inr ⟨byte1, rfl, rfl, hx⟩)))

/-! Decode after encode. -/

/-- The four formats without a 16-bit immediate decode by computation; in `OP_D16` the halves are put together again. -/
theorem decode_encode (i : Instr) (rest : List Byte) : decode (encode i ++ rest) = .instr i rest := by
  have hd16 {op : Byte} {make : Word → Instr} (hrow : firstByteRow op = some (.opD16 make)) (w : Word) :
      decode (op :: lowByte w :: highByte w :: rest) = .instr (make w) rest := by
    rw [decode_opD16 hrow, concat_high_low]
  cases i with
  | ldBC w => exact hd16 firstByteRow_01 w
  | ldDE w => exact hd16 firstByteRow_11 w
  | ldHL w => exact hd16 firstByteRow_21 w
  | ldSP w => exact hd16 firstByteRow_31 w
  | ldB _ | ldC _ | ldD _ | ldE _ | ldH _ | ldL _ | ldA _ | jrNZ _ | ldHLDecA | ldHighCA | xorA
  | bit7B | bit7C | bit7D | bit7E | bit7H | bit7L | bit7A => rfl

/-- Settles O6, for every instruction: each of the 22 is well formed. -/
theorem decodeOfEncodeIsTheInstruction : Obligations.DecodeOfEncodeIsTheInstruction :=
  fun i rest _ => decode_encode i rest

/-! Encode after decode. -/

/-- What a row of the first-byte table makes is encoded by the row's format with the row's byte (R91). -/
def EncodedWith (byte0 : Byte) : Row → Prop
  | .op i => encode i = [byte0]
  | .opD8 make => ∀ d8, encode (make d8) = [byte0, d8]
  | .opE8 make => ∀ e8, encode (make e8) = [byte0, e8]
  | .opD16 make => ∀ d16, encode (make d16) = [byte0, lowByte d16, highByte d16]
  | .cbXop => byte0 = 0xCB

theorem firstByteTable_encodedWith : ∀ x ∈ firstByteTable, EncodedWith x.1 x.2 := by
  simp [firstByteTable, EncodedWith, encode]

theorem extendedTable_encode : ∀ x ∈ extendedTable, encode x.2 = [0xCB, x.1] := by decide

/-- A first byte with a row encodes what the row makes. -/
theorem encodedWith_of_row {row : Row} (hrow : firstByteRow op = some row) : EncodedWith op row :=
  firstByteTable_encodedWith _ (firstByteRow_mem hrow)

theorem eq_encode_of_decode (h : decode bytes = .instr i rest) : bytes = encode i ++ rest := by
  cases bytes with
  | nil => cases h
  | cons op tail =>
    rw [decode_cons] at h
    rcases decodeRow_instr h with ⟨hrow, rfl⟩ | ⟨make, d8, hrow, rfl, rfl⟩ | ⟨make, e8, hrow, rfl, rfl⟩ |
        ⟨make, low, high, hrow, rfl, rfl⟩ | ⟨byte1, hrow, rfl, hx⟩
    · rw [show encode i = [op] from encodedWith_of_row hrow]; rfl
    · rw [show encode (make d8) = [op, d8] from encodedWith_of_row hrow d8]; rfl
    · rw [show encode (make e8) = [op, e8] from encodedWith_of_row hrow e8]; rfl
    · rw [show encode (make (concat high low)) = [op, _, _] from encodedWith_of_row hrow _, lowByte_concat, highByte_concat]
      rfl
    · rw [extendedTable_encode _ (extendedInstr_mem hx), show op = 0xCB from encodedWith_of_row hrow]; rfl

open Laws.Form in
/-- The family `Form` has a member for every instruction. -/
theorem form_statement (i : Instr) : Statement i := by
  cases i
  exacts [ldB _, ldC _, ldD _, ldE _, ldH _, ldL _, ldA _, ldBC _, ldDE _, ldHL _, ldSP _, jrNZ _, ldHLDecA, ldHighCA, xorA,
    bit7B, bit7C, bit7D, bit7E, bit7H, bit7L, bit7A]

/-- Settles O7, row by row of the two tables. -/
theorem encodeOfDecodeIsTheBytes : Obligations.EncodeOfDecodeIsTheBytes :=
  fun _ _ i h => ⟨eq_encode_of_decode h, (form_statement i).1⟩

/-! Every pair of bytes has its answer. -/

theorem step_of_prefixed_unassigned {byte1 : Byte} (hr : s.faultRecord = none) (h0 : s.readU8 s.pc = .ok 0xCB)
    (h1 : s.readU8 (s.pc + 1) = .ok byte1) (hx : byte1 ∉ assignedExtendedBytes) :
    step s = .fault (.unknownExtendedOpcode byte1 (s.pc + 1)) := by
  refine step_of_fetch_error hr ?_
  rw [fetch_of_row h0 firstByteRow_CB, fetchRow_cbXop_unknown h1 (extendedInstr_eq_none.2 hx)]
  rfl

/-- Settles O3: a byte that is not listed has no row, for the decoder and for the fetch. -/
theorem unassignedBytesAreUnknownOpcodes : Obligations.UnassignedBytesAreUnknownOpcodes :=
  ⟨by decide, fun _ rest h => decode_unassigned h rest, fun _ rest h => decode_prefixed_unassigned h rest,
    fun _ _ hr h0 hop => step_of_unassigned hr h0 hop, fun _ _ hr h0 h1 hx => step_of_prefixed_unassigned hr h0 h1 hx⟩

/-- An assigned first byte has a row. -/
theorem firstByteRow_of_assigned (hop : op ∈ assignedFirstBytes) : ∃ row, firstByteRow op = some row :=
  Option.ne_none_iff_exists'.1 fun hnone => firstByteRow_eq_none.1 hnone hop

theorem extendedInstr_of_assigned {byte1 : Byte} (hx : byte1 ∈ assignedExtendedBytes) : ∃ i, extendedInstr byte1 = some i :=
  Option.ne_none_iff_exists'.1 fun hnone => extendedInstr_eq_none.1 hnone hx

/-- Two bytes after an assigned first byte other than the prefix are enough for an instruction. -/
theorem decode_assigned (hop : op ∈ assignedFirstBytes) (hcb : op ≠ 0xCB) (byte1 byte2 : Byte) (rest : List Byte) :
    ∃ i rest', decode (op :: byte1 :: byte2 :: rest) = .instr i rest' := by
  obtain ⟨row, hrow⟩ := firstByteRow_of_assigned hop
  cases row with
  | op i => exact ⟨_, _, decode_op hrow _⟩
  | opD8 make => exact ⟨_, _, decode_opD8 hrow _ _⟩
  | opE8 make => exact ⟨_, _, decode_opE8 hrow _ _⟩
  | opD16 make => exact ⟨_, _, decode_opD16 hrow _ _ _⟩
  | cbXop => exact absurd (encodedWith_of_row hrow) hcb

/-- Settles O4, one lemma for each of the four cases. -/
theorem decodingIsTotalOnEveryPair : Obligations.DecodingIsTotalOnEveryPair := by
  intro byte0 byte1 byte2 rest
  refine ⟨fun hop hcb => decode_assigned hop hcb byte1 byte2 rest, ?_, ?_, fun hop => decode_unassigned hop _⟩
  · rintro rfl hx
    obtain ⟨i, hi⟩ := extendedInstr_of_assigned hx
    exact ⟨i, decode_prefixed hi _⟩
  · rintro rfl hx
    exact decode_prefixed_unassigned hx _

/-! Lengths. -/

/-- The table of R92: the length of an instruction by its first byte. -/
def LengthByFirstByte (byte0 : Byte) (length : Nat) : Prop :=
  (byte0 ∈ ([0x06, 0x0E, 0x16, 0x1E, 0x26, 0x2E, 0x3E] : List Byte) ∧ length = 2) ∨
  (byte0 ∈ ([0x01, 0x11, 0x21, 0x31] : List Byte) ∧ length = 3) ∨
  (byte0 = 0x20 ∧ length = 2) ∨
  (byte0 ∈ ([0x32, 0xAF, 0xE2] : List Byte) ∧ length = 1) ∨
  (byte0 = 0xCB ∧ length = 2)

/-- An instruction is as long as the table says for the first byte of its encoding. -/
theorem lengthByFirstByte_of_encode (h : (encode i).head? = some op) : LengthByFirstByte op i.length := by
  cases i with
  | ldB _ | ldC _ | ldD _ | ldE _ | ldH _ | ldL _ | ldA _ => cases h; exact .inl ⟨by decide, rfl⟩
  | ldBC _ | ldDE _ | ldHL _ | ldSP _ => cases h; exact .inr (.inl ⟨by decide, rfl⟩)
  | jrNZ _ => cases h; exact .inr (.inr (.inl ⟨rfl, rfl⟩))
  | ldHLDecA | ldHighCA | xorA => cases h; exact .inr (.inr (.inr (.inl ⟨by decide, rfl⟩)))
  | bit7B | bit7C | bit7D | bit7E | bit7H | bit7L | bit7A => cases h; exact .inr (.inr (.inr (.inr ⟨rfl, rfl⟩)))

theorem length_of_decode (h : decode bytes = .instr i rest) : bytes.length = rest.length + i.length := by
  obtain ⟨_, hlen, _, _⟩ := form_statement i
  rw [eq_encode_of_decode h, List.length_append, hlen, Nat.add_comm]

theorem encode_head_of_decode (h : decode (op :: bytes) = .instr i rest) : (encode i).head? = some op := by
  have hbytes := eq_encode_of_decode h
  obtain ⟨_, hlen, hpos, _⟩ := form_statement i
  cases henc : encode i with
  | nil => rw [henc] at hlen; rw [← hlen] at hpos; cases hpos
  | cons byte0 tail =>
    rw [henc] at hbytes
    cases hbytes
    rfl

/-- A handler that completes leaves `pc` behind its instruction, unless it is a branch that is taken. -/
theorem exec_next_pc (h : exec i s = .next t) (hi : ¬ ((∃ e8, i = .jrNZ e8) ∧ s.flags.z = false)) :
    t.pc = s.pc + BitVec.ofNat 16 i.length := by
  cases i with
  | jrNZ e8 =>
    have hz : s.flags.z = true := by simpa using hi
    rw [exec_jrNZ, hz] at h
    cases h; rfl
  | ldHLDecA => obtain ⟨s1, _, rfl⟩ := exec_ldHLDecA_next h; rfl
  | ldHighCA => rw [exec_ldHighCA_next h]; rfl
  | xorA =>
    rw [exec_xorA] at h
    cases h; rfl
  | ldB _ | ldC _ | ldD _ | ldE _ | ldH _ | ldL _ | ldA _ | ldBC _ | ldDE _ | ldHL _ | ldSP _
  | bit7B | bit7C | bit7D | bit7E | bit7H | bit7L | bit7A => cases h; rfl

/-- Settles O5: the first byte of the bytes is that of the encoding, and each handler adds its length. -/
theorem lengthByFirstByteAndAdvance : Obligations.LengthByFirstByteAndAdvance :=
  ⟨fun _ _ _ _ h => ⟨length_of_decode h, lengthByFirstByte_of_encode (encode_head_of_decode h)⟩,
    fun _ _ hr h0 hop => step_of_unassigned hr h0 hop, fun _ _ _ h hi => exec_next_pc h hi⟩

/-! The opcode tables, written out. -/

/-- Settles O2: each row is the encoding of its instruction, the halves of a `d16` low byte first. -/
theorem opcodeTablesDecodeRowByRow : Obligations.OpcodeTablesDecodeRowByRow := by
  intro b1 b2 rest
  simp only [← concat_eq_ofNat]
  exact ⟨decode_opD16 firstByteRow_01 b1 b2 rest, decode_opD16 firstByteRow_11 b1 b2 rest,
    decode_opD16 firstByteRow_21 b1 b2 rest, decode_opD16 firstByteRow_31 b1 b2 rest,
    decode_encode (.ldB b1) rest, decode_encode (.ldC b1) rest, decode_encode (.ldD b1) rest, decode_encode (.ldE b1) rest,
    decode_encode (.ldH b1) rest, decode_encode (.ldL b1) rest, decode_encode (.ldA b1) rest, decode_encode (.jrNZ b1) rest,
    decode_encode .ldHLDecA rest, decode_encode .ldHighCA rest, decode_encode .xorA rest,
    decode_encode .bit7B rest, decode_encode .bit7C rest, decode_encode .bit7D rest, decode_encode .bit7E rest,
    decode_encode .bit7H rest, decode_encode .bit7L rest, decode_encode .bit7A rest⟩

/-- Settles O1: the accepted words are encodings, the rejected ones hold an unassigned byte. -/
theorem writtenOutWordsDecode : Obligations.WrittenOutWordsDecode :=
  ⟨decode_encode (.ldB 0x12) [], decode_encode (.ldA 0x80) [0x55], decode_encode (.ldBC 0x1234) [],
    decode_encode (.ldSP 0xFFFE) [], decode_encode (.jrNZ 0xFB) [], decode_encode .ldHLDecA [], decode_encode .ldHighCA [],
    decode_encode .xorA [], decode_encode .bit7H [], decode_prefixed_unassigned (by decide) [], decode_unassigned (by decide) []⟩

end Sys2Proof.Machine
end

section
/-! PROOFS. The step and its response (spec/40_step_fetch_dispatch.md R121, R125, R126, R128), and the frame of all 22
instructions (R124). -/

namespace Sys2Proof.Machine

variable {i : Instr} {s t : State}

/-! The frame. -/

/-- A byte register is read from the byte registers alone. -/
theorem readReg8_congr (h : t.regs = s.regs) (r : RegName) : t.readReg8 r = s.readReg8 r := by
  cases r <;> simp only [State.readReg8, h]

/-- A write of a pair keeps the byte registers that are not its halves. -/
theorem readReg8_writeReg16_other {pair high low r : RegName} {w : Word} (hp : (pair, high, low) ∈ pairHalves)
    (hw : s.writeReg16 pair w = .ok t) (hhigh : r ≠ high) (hlow : r ≠ low) : t.readReg8 r = s.readReg8 r := by
  rcases mem_pairHalves.1 hp with ⟨rfl, rfl, rfl⟩ | ⟨rfl, rfl, rfl⟩ | ⟨rfl, rfl, rfl⟩ <;> cases hw <;> cases r <;> trivial

/-- A handler that completes writes no byte register, or its one destination at width 8, or the pair of its two at width 16
(the table under R27). -/
theorem exec_next_regs (h : exec i s = .next t) :
    (destinations i = [] ∧ t.regs = s.regs) ∨
    (∃ r v u, destinations i = [r] ∧ s.writeReg8 r v = .ok u ∧ t.regs = u.regs) ∨
    (∃ pair high low w u, destinations i = [high, low] ∧ (pair, high, low) ∈ pairHalves ∧ s.writeReg16 pair w = .ok u ∧
      t.regs = u.regs) := by
  cases i with
  | ldB _ | ldC _ | ldD _ | ldE _ | ldH _ | ldL _ | ldA _ => cases h; exact .inr (.inl ⟨_, _, _, rfl, rfl, rfl⟩)
  | xorA =>
    rw [exec_xorA] at h
    cases h; exact .inr (.inl ⟨_, _, _, rfl, rfl, rfl⟩)
  | ldBC d16 => cases h; exact .inr (.inr ⟨.BC, _, _, d16, _, rfl, by decide, rfl, rfl⟩)
  | ldDE d16 => cases h; exact .inr (.inr ⟨.DE, _, _, d16, _, rfl, by decide, rfl, rfl⟩)
  | ldHL d16 => cases h; exact .inr (.inr ⟨.HL, _, _, d16, _, rfl, by decide, rfl, rfl⟩)
  | ldHLDecA =>
    obtain ⟨s1, _, rfl⟩ := exec_ldHLDecA_next h
    exact .inr (.inr ⟨.HL, _, _, s.regs.hl - 1, _, rfl, by decide, rfl, rfl⟩)
  | ldHighCA => rw [exec_ldHighCA_next h]; exact .inl ⟨rfl, rfl⟩
  | ldSP _ | jrNZ _ | bit7B | bit7C | bit7D | bit7E | bit7H | bit7L | bit7A => cases h; exact .inl ⟨rfl, rfl⟩

/-- A handler that completes keeps every byte register that is not among its destinations. -/
theorem exec_next_readReg8 {r : RegName} (h : exec i s = .next t) (hr : r ∉ destinations i) :
    t.readReg8 r = s.readReg8 r := by
  rcases exec_next_regs h with ⟨_, hregs⟩ | ⟨r', v, u, hdest, hw, hregs⟩ | ⟨pair, high, low, w, u, hdest, hp, hw, hregs⟩
  · exact readReg8_congr hregs r
  · rw [hdest, List.mem_singleton] at hr
    obtain ⟨_, _, hother⟩ := writeReg8_ok hw
    exact (readReg8_congr hregs r).trans (hother r hr)
  · obtain ⟨hhigh, hlow⟩ : r ≠ high ∧ r ≠ low := by simpa [hdest] using hr
    exact (readReg8_congr hregs r).trans (readReg8_writeReg16_other hp hw hhigh hlow)

theorem exec_next_carry (h : exec i s = .next t) (hxor : i ≠ .xorA) : t.flags.c = s.flags.c := by
  cases exec_effect h with
  | exclusiveOr => exact absurd rfl hxor
  | store hw => rw [writeU8_frame hw]; rfl
  | registers | stackPointer | bitTest => rfl

/-- A handler that completes keeps every byte but the one at the address it stores to. -/
theorem exec_next_readU8 {b : Word} (h : exec i s = .next t) (hb : storeAddress i s ≠ some b) :
    t.readU8 b = s.readU8 b := by
  cases exec_effect h with
  | store hw =>
    have hne : b ≠ s.regs.hl := fun heq => hb (congrArg some heq.symm)
    rw [← readU8_writeU8_other hw hne]
    exact readU8_congr rfl rfl b
  | registers | stackPointer | exclusiveOr | bitTest => exact readU8_congr rfl rfl b

/-- Settles O40, one lemma for each piece of state. -/
theorem whatIsNotListedIsUnchanged : Obligations.WhatIsNotListedIsUnchanged := by
  intro i s t h
  refine ⟨fun _ _ => exec_next_readReg8 h, exec_next_sp h, exec_next_flags h, exec_next_carry h, exec_next_faultRecord h,
    fun hnone b => exec_next_readU8 h ?_, fun a ha b hb => exec_next_readU8 h ?_⟩
  · rw [hnone]; nofun
  · rw [ha]; exact fun heq => hb (Option.some.inj heq).symm

/-! The response. -/

/-- Settles O13, by what a step can do when it completes and when it faults. -/
theorem stepResponseAndStateAfter : Obligations.StepResponseAndStateAfter := by
  refine fun s => ⟨fun t h => ?_, fun f h hr => ?_, fun f hr => ⟨step_of_record hr, ifStep_of_record hr⟩⟩
  · obtain ⟨hr, x, hf, hx⟩ := step_next h
    exact ⟨x.opcode, (fetch_ok hf).1, ifStep_of_next hr hf hx⟩
  · rcases step_fault h with hrec | ⟨_, hf | ⟨x, hf, hx⟩⟩
    · cases hr.symm.trans hrec
    · exact ifStep_of_fetch_error hr hf
    · exact ifStep_of_fault hr hf hx

/-! No refusal. -/

theorem outcome_ne_refused (x : Except Fault State) (r : Refusal) : outcome x ≠ .refused r := by
  cases x <;> exact nofun

/-- The two stores answer by `outcome`; every other handler completes. -/
theorem exec_ne_refused (i : Instr) (s : State) (r : Refusal) : exec i s ≠ .refused r := by
  cases i with
  | ldHLDecA => exact outcome_ne_refused (storeAndDecrement s) r
  | ldHighCA => exact outcome_ne_refused (storeHighPage s) r
  | ldB _ | ldC _ | ldD _ | ldE _ | ldH _ | ldL _ | ldA _ | ldBC _ | ldDE _ | ldHL _ | ldSP _ | jrNZ _ | xorA
  | bit7B | bit7C | bit7D | bit7E | bit7H | bit7L | bit7A => exact nofun

/-- Settles O10: a step answers a fault, or what a handler answers. -/
theorem noStepIsRefused : Obligations.NoStepIsRefused := by
  intro s r
  cases hr : s.faultRecord with
  | some f => rw [step_of_record hr]; exact nofun
  | none =>
    cases hf : fetch s with
    | error f => rw [step_of_fetch_error hr hf]; exact nofun
    | ok x => rw [step_of_fetch hr hf]; exact exec_ne_refused x.instr s r

/-! Fetch and decode. -/

/-- A fetch finds the instruction that the bytes at `pc` decode to, whatever follows it. -/
theorem fetch_of_decode {bytes rest : List Byte}
    (hread : ∀ (k : Nat) (h : k < bytes.length), s.readU8 (s.pc + BitVec.ofNat 16 k) = .ok bytes[k])
    (hdec : decode bytes = .instr i rest) : ∃ op, fetch s = .ok { opcode := op, instr := i } := by
  cases bytes with
  | nil => cases hdec
  | cons op tail =>
    have h0 : s.readU8 s.pc = .ok op :=
      (congrArg s.readU8 (BitVec.add_zero s.pc)).symm.trans (hread 0 (Nat.succ_pos _))
    refine ⟨op, ?_⟩
    rw [decode_cons] at hdec
    rcases decodeRow_instr hdec with ⟨hrow, _⟩ | ⟨make, d8, hrow, rfl, rfl⟩ | ⟨make, e8, hrow, rfl, rfl⟩ |
        ⟨make, low, high, hrow, rfl, rfl⟩ | ⟨byte1, hrow, rfl, hx⟩
    · rw [fetch_of_row h0 hrow]; rfl
    · rw [fetch_of_row h0 hrow, fetchRow_opD8_ok (hread 1 (by simp))]; rfl
    · rw [fetch_of_row h0 hrow, fetchRow_opE8_ok (hread 1 (by simp))]; rfl
    · rw [fetch_of_row h0 hrow, fetchRow_opD16_ok (hread 1 (by simp)) (hread 2 (by simp))]; rfl
    · rw [fetch_of_row h0 hrow, fetchRow_cbXop_ok (hread 1 (by simp)) hx]; rfl

/-- Settles O8: the fetch decodes as the decoder does. -/
theorem stepRunsTheDecodedInstruction : Obligations.StepRunsTheDecodedInstruction := by
  intro s bytes i hr hread hdec _
  obtain ⟨op, hf⟩ := fetch_of_decode hread hdec
  exact step_of_fetch hr hf

end Sys2Proof.Machine
end

section
/-! PROOFS. The eleven load-immediate instructions (spec/41_load_immediate.md): effect, step, the fetch faults in their order
(R140 to R150), and how loads of a pair and of its halves combine (R152). -/

namespace Sys2Proof.Machine

variable {i : Instr} {s t : State} {a : Word} {f : Fault} {op : Byte} {row : Row}

/-! The step by the row of its opcode byte. -/

theorem ifStep_of_row_next (hr : s.faultRecord = none) (h0 : s.readU8 s.pc = .ok op) (hrow : firstByteRow op = some row)
    (hrest : fetchRow s s.pc op (some row) = .ok i) (hexec : exec i s = .next t) : ifStep s = (.ok t.pc op, t) := by
  have hfetch : fetch s = .ok { opcode := op, instr := i } := by rw [fetch_of_row h0 hrow, hrest]; rfl
  exact ifStep_of_next hr hfetch hexec

/-- A byte behind the opcode that cannot be read is the fault of the step, which sets the latch alone. -/
theorem ifStep_of_row_unreadable (hr : s.faultRecord = none) (h0 : s.readU8 s.pc = .ok op)
    (hrow : firstByteRow op = some row) (ha : s.readU8 a = .error f) (hrest : fetchRow s s.pc op (some row) = .error f) :
    f = .unimplementedMemoryRegion a .read ∧ ifStep s = (.fault f, { s with faultRecord := some f }) := by
  have hfetch : fetch s = .error f := by rw [fetch_of_row h0 hrow, hrest]; rfl
  exact ⟨(readU8_error ha).1, ifStep_of_fetch_error hr hfetch⟩

theorem opcodeFetchFaults_of_ready (hr : s.faultRecord = none) : opcodeFetchFaults s :=
  fun _ h => ⟨(readU8_error h).1, ifStep_of_fetch_error hr (fetch_of_opcode_error h)⟩

/-! The 8-bit loads. -/

/-- The rule of `LD r,d8` from the row of its opcode and the effect of its handler. -/
theorem loads8_of_row {make : Byte → Instr} {put : Byte → Regs → Regs} (hrow : firstByteRow op = some (.opD8 make))
    (hexec : ∀ s d8, exec (make d8) s = .next { s with regs := put d8 s.regs, pc := s.pc + 2 }) : loads8 op make put := by
  refine ⟨hexec, fun s hr => ⟨opcodeFetchFaults_of_ready hr, fun h0 => ⟨fun d8 h1 => ?_, fun f h1 => ?_⟩⟩⟩
  · exact ifStep_of_row_next hr h0 hrow (fetchRow_opD8_ok h1) (hexec s d8)
  · exact ifStep_of_row_unreadable hr h0 hrow h1 (fetchRow_opD8_error h1)

/-- Settles O31: the seven opcodes have their rows, and the seven handlers their closed forms. -/
theorem loadImmediate8_holds : Obligations.LoadImmediate8 :=
  ⟨loads8_of_row firstByteRow_06 fun _ => exec_ldB, loads8_of_row firstByteRow_0E fun _ => exec_ldC,
    loads8_of_row firstByteRow_16 fun _ => exec_ldD, loads8_of_row firstByteRow_1E fun _ => exec_ldE,
    loads8_of_row firstByteRow_26 fun _ => exec_ldH, loads8_of_row firstByteRow_2E fun _ => exec_ldL,
    loads8_of_row firstByteRow_3E fun _ => exec_ldA⟩

/-! The 16-bit loads. -/

theorem readU8_ok_iff : (∃ v, s.readU8 a = .ok v) ↔ a.toNat < 8192 ∨ (0x8000 ≤ a.toNat ∧ a.toNat < 0xA000) := by
  rw [← region_eq_ram, ← region_eq_vram]
  constructor
  · rintro ⟨v, h⟩
    exact (readU8_ok h).imp And.left And.left
  · rintro (h | h)
    · exact ⟨_, readU8_ram h⟩
    · exact ⟨_, readU8_vram h⟩

/-- The map has no unreadable byte between two readable ones: both arrays end before a gap of more than one byte. -/
theorem readU8_ok_between {low high : Byte} (h0 : s.readU8 a = .ok low) (h2 : s.readU8 (a + 2) = .ok high) :
    ∃ v, s.readU8 (a + 1) = .ok v := by
  have ha0 := readU8_ok_iff.1 ⟨low, h0⟩
  have ha2 := readU8_ok_iff.1 ⟨high, h2⟩
  rw [readU8_ok_iff]
  bv_omega

/-- The rule of `LD rr,d16` from the row of its opcode and the effect of its handler. -/
theorem loads16_of_row {make : Word → Instr} {put : Word → State → State} (hrow : firstByteRow op = some (.opD16 make))
    (hexec : ∀ s d16, exec (make d16) s = .next { put d16 s with pc := s.pc + 3 }) : loads16 op make put := by
  refine ⟨hexec, fun s hr => ⟨opcodeFetchFaults_of_ready hr, fun h0 =>
    ⟨fun low high h1 h2 => ?_, fun f h2 => ?_, fun high h2 => readU8_ok_between h0 h2⟩⟩, fun s p high f h2 h1 => ?_⟩
  · rw [← concat_eq_ofNat]
    exact ifStep_of_row_next hr h0 hrow (fetchRow_opD16_ok h1 h2) (hexec s _)
  · exact ifStep_of_row_unreadable hr h0 hrow h2 (fetchRow_opD16_error_high h2)
  · rw [fetchRest, hrow]
    exact ⟨(readU8_error h1).1, fetchRow_opD16_error_low h2 h1⟩

/-- Settles O32: the halves of the word are its quotient and remainder by 256. -/
theorem loadImmediate16IntoPair : Obligations.LoadImmediate16IntoPair := by
  simp only [Obligations.LoadImmediate16IntoPair, ← highByte_eq_ofNat, ← lowByte_eq_ofNat]
  exact ⟨loads16_of_row firstByteRow_01 fun _ => exec_ldBC, loads16_of_row firstByteRow_11 fun _ => exec_ldDE,
    loads16_of_row firstByteRow_21 fun _ => exec_ldHL⟩

/-- Settles O33, as for the pairs, with the closed form that writes `sp`. -/
theorem loadImmediate16IntoStackPointer : Obligations.LoadImmediate16IntoStackPointer :=
  loads16_of_row firstByteRow_31 fun _ => exec_ldSP

/-! Loads of a pair and of its halves. -/

/-- What the three loads of a pair do to it, seen as one word by `get`: each completes, and it replaces what it loads. -/
structure PairLoads (pair : Word → Instr) (high low : Byte → Instr) (get : Regs → Word) : Prop where
  whole (s : State) (w : Word) : ∃ t, exec (pair w) s = .next t ∧ get t.regs = w
  upper (s : State) (v : Byte) : ∃ t, exec (high v) s = .next t ∧ get t.regs = concat v (lowByte (get s.regs))
  lower (s : State) (v : Byte) : ∃ t, exec (low v) s = .next t ∧ get t.regs = concat (highByte (get s.regs)) v

theorem pairLoads_bc : PairLoads .ldBC .ldB .ldC Regs.bc where
  whole s w := ⟨_, exec_ldBC w, Regs.bc_setBC s.regs w⟩
  upper s v := ⟨_, exec_ldB v, by simp [Regs.bc]⟩
  lower s v := ⟨_, exec_ldC v, by simp [Regs.bc]⟩

theorem pairLoads_de : PairLoads .ldDE .ldD .ldE Regs.de where
  whole s w := ⟨_, exec_ldDE w, Regs.de_setDE s.regs w⟩
  upper s v := ⟨_, exec_ldD v, by simp [Regs.de]⟩
  lower s v := ⟨_, exec_ldE v, by simp [Regs.de]⟩

theorem pairLoads_hl : PairLoads .ldHL .ldH .ldL Regs.hl where
  whole s w := ⟨_, exec_ldHL w, Regs.hl_setHL s.regs w⟩
  upper s v := ⟨_, exec_ldH v, by simp [Regs.hl]⟩
  lower s v := ⟨_, exec_ldL v, by simp [Regs.hl]⟩

/-- Settles O47: the five loads one after another, each by what it does to the pair. -/
theorem loadsCombineByHalves : Obligations.LoadsCombineByHalves := by
  intro s w w' v pair high low get hmem
  have hloads : PairLoads pair high low get := by
    simp only [List.mem_cons, List.not_mem_nil, or_false, Prod.mk.injEq] at hmem
    rcases hmem with ⟨rfl, rfl, rfl, rfl⟩ | ⟨rfl, rfl, rfl, rfl⟩ | ⟨rfl, rfl, rfl, rfl⟩
    exacts [pairLoads_bc, pairLoads_de, pairLoads_hl]
  obtain ⟨t, ht, hget⟩ := hloads.whole s w
  obtain ⟨t', ht', hget'⟩ := hloads.whole t w'
  obtain ⟨th, hth, hupper⟩ := hloads.upper t v
  obtain ⟨tl, htl, hlower⟩ := hloads.lower t v
  obtain ⟨u, hu, hgetu⟩ := hloads.whole th w
  rw [hget, concat_eq_ofNat, lowByte_toNat] at hupper
  rw [hget, concat_eq_ofNat, highByte_toNat] at hlower
  exact ⟨t, t', th, tl, u, ht, hget, ht', hget', hth, hupper, htl, hlower, hu, hgetu⟩

end Sys2Proof.Machine
end

section
/-! PROOFS. The relative conditional branch (spec/42_relative_branch.md): target, step and operand fault (R160), and where it
goes after each writer of `Z` (R161). -/

namespace Sys2Proof.Machine

variable {s t : State}

/-! Where the branch goes. -/

/-- The signed offset counts from behind the instruction; the order of the two wrapping additions does not matter. -/
theorem branchTarget_eq_ofInt (p : Word) (e8 : Byte) : branchTarget p e8 = BitVec.ofInt 16 (p.toNat + 2 + e8.toInt) :=
  calc p + 2 + sext16 e8
      = p + sext16 e8 + 2 := add_right_comm p 2 (sext16 e8)
    _ = BitVec.ofInt 16 (p.toNat + e8.toInt) + BitVec.ofInt 16 2 := by rw [signedAdditionWraps]; rfl
    _ = BitVec.ofInt 16 (p.toNat + 2 + e8.toInt) := by rw [← BitVec.ofInt_add, Int.add_right_comm]

theorem exec_jrNZ_taken (e8 : Byte) (hz : s.flags.z = false) :
    exec (.jrNZ e8) s = .next { s with pc := BitVec.ofInt 16 (s.pc.toNat + 2 + e8.toInt) } := by
  rw [exec_jrNZ, hz, ← branchTarget_eq_ofInt]; rfl

theorem exec_jrNZ_notTaken (e8 : Byte) (hz : s.flags.z = true) : exec (.jrNZ e8) s = .next { s with pc := s.pc + 2 } := by
  rw [exec_jrNZ, hz]; rfl

/-- Settles O34: the offset byte is fetched before the handler looks at `Z`, so its fault does not depend on `Z`. -/
theorem relativeBranch : Obligations.RelativeBranch := by
  refine ⟨fun e8 _ => exec_jrNZ_taken e8, fun e8 _ => exec_jrNZ_notTaken e8, fun s hr h0 =>
    ⟨fun e8 h1 => ?_, fun f h1 => ?_⟩⟩
  · have hstep {t : State} (hexec : exec (.jrNZ e8) s = .next t) : ifStep s = (.ok t.pc 0x20, t) :=
      ifStep_of_row_next hr h0 firstByteRow_20 (fetchRow_opE8_ok h1) hexec
    exact ⟨fun hz => hstep (exec_jrNZ_taken e8 hz), fun hz => hstep (exec_jrNZ_notTaken e8 hz)⟩
  · exact ifStep_of_row_unreadable hr h0 firstByteRow_20 h1 (fetchRow_opE8_error h1)

/-! What the writers of `Z` leave. -/

theorem exec_xorA_next_z (h : exec .xorA s = .next t) : t.flags.z = true := by
  rw [exec_xorA] at h
  cases h; rfl

theorem exec_next_z_of_test {i : Instr} {r : RegName} {v : Byte} (h : exec i s = .next t) (hr : testedRegister i = some r)
    (hv : s.readReg8 r = .ok v) : t.flags.z = !v.getLsbD 7 := by
  rw [exec_next_flags_of_test h hr hv]; rfl

theorem ifReset_next_z {image : List Byte} (h : ifReset image = .next t) : t.flags.z = false := by
  obtain ⟨_, rfl⟩ := ifReset_next h
  rfl

theorem ifReset_next_pc {image : List Byte} (h : ifReset image = .next t) : t.pc = 0 := by
  obtain ⟨_, rfl⟩ := ifReset_next h
  rfl

/-- Settles O45: each writer of `Z` decides the branch by the value it leaves there. -/
theorem branchFollowsTheLastFlagWriter : Obligations.BranchFollowsTheLastFlagWriter := by
  refine ⟨fun s t e8 h => exec_jrNZ_notTaken e8 (exec_xorA_next_z h), fun i r v e8 s t hr hv h => ?_, fun image t e8 h => ?_⟩
  · have hz := exec_next_z_of_test h hr hv
    refine ⟨fun hset => exec_jrNZ_taken e8 ?_, fun hclear => exec_jrNZ_notTaken e8 ?_⟩
    · rw [hz, hset]; rfl
    · rw [hz, hclear]; rfl
  · have hz := ifReset_next_z h
    exact ⟨hz, by simpa [ifReset_next_pc h] using exec_jrNZ_taken e8 hz⟩

end Sys2Proof.Machine
end

section
/-! PROOFS. The two stores (spec/43_store.md): effect, step and fault of `LD (HL-),A` (R170) and of `LD (C),A` (R171). -/

namespace Sys2Proof.Machine

variable {i : Instr} {s t : State} {f : Fault} {op : Byte}

/-! The step at a one-byte instruction. -/

theorem ifStep_of_op_next (hr : s.faultRecord = none) (h0 : s.readU8 s.pc = .ok op) (hrow : firstByteRow op = some (.op i))
    (hexec : exec i s = .next t) : ifStep s = (.ok t.pc op, t) :=
  ifStep_of_row_next hr h0 hrow rfl hexec

theorem ifStep_of_op_fault (hr : s.faultRecord = none) (h0 : s.readU8 s.pc = .ok op) (hrow : firstByteRow op = some (.op i))
    (hexec : exec i s = .fault f) : ifStep s = (.fault f, { s with faultRecord := some f }) :=
  ifStep_of_fault hr (fetch_of_row h0 hrow) hexec

/-! The store at `HL`. -/

/-- The byte stored is still there after the decrement: neither `HL` nor `pc` is in memory. -/
theorem exec_ldHLDecA_next_readU8 (hi : s.MemoryInv) (h : exec .ldHLDecA s = .next t) (hio : region s.regs.hl ≠ .io) :
    t.readU8 s.regs.hl = .ok s.regs.a := by
  obtain ⟨s1, hw, rfl⟩ := exec_ldHLDecA_next h
  rw [← readU8_writeU8_same hi hw hio]
  exact readU8_congr rfl rfl _

/-- In IO the write is dropped. -/
theorem exec_ldHLDecA_io_memory (h : exec .ldHLDecA s = .next t) (hio : region s.regs.hl = .io) :
    t.ram = s.ram ∧ t.vram = s.vram := by
  rw [exec_ldHLDecA_ok (writeU8_of_io hio)] at h
  cases h
  exact ⟨rfl, rfl⟩

theorem exec_ldHLDecA_next_regs (h : exec .ldHLDecA s = .next t) : t.regs = s.regs.setHL (s.regs.hl - 1) := by
  obtain ⟨_, _, rfl⟩ := exec_ldHLDecA_next h
  rfl

/-- Settles O35: the write at `HL` decides between the two cases, and the frame is that of the handler's effect. -/
theorem storeAndDecrement_holds : Obligations.StoreAndDecrement := by
  refine fun s => ⟨fun hregion => ?_, fun hregion => ?_⟩
  · obtain ⟨s1, hw⟩ := writeU8_ok_iff.2 hregion
    obtain ⟨t, hexec⟩ : ∃ t, exec .ldHLDecA s = .next t := ⟨_, exec_ldHLDecA_ok hw⟩
    have hregs := exec_ldHLDecA_next_regs hexec
    have hpc : t.pc = s.pc + 1 := exec_next_pc hexec nofun
    refine ⟨t, hexec, ?_, ?_, hpc, exec_next_sp hexec nofun, exec_next_flags hexec nofun rfl, exec_next_faultRecord hexec,
      fun b hb => exec_next_readU8 hexec fun h => hb (Option.some.inj h).symm, exec_ldHLDecA_io_memory hexec,
      fun hi hstored => exec_ldHLDecA_next_readU8 hi hexec ?_, fun hr h0 => ?_⟩
    · rw [hregs, Regs.hl_setHL]
    · rw [hregs]; rfl
    · rcases hstored with h | h <;> simp [h]
    · rw [← hpc]
      exact ifStep_of_op_next hr h0 firstByteRow_32 hexec
  · have hexec := exec_ldHLDecA_error (writeU8_of_unimplemented hregion)
    exact ⟨hexec, fun hr h0 => ifStep_of_op_fault hr h0 firstByteRow_32 hexec⟩

/-! The store in the high page. -/

theorem highPageAddress_eq_ofNat (c : Byte) : highPageAddress c = BitVec.ofNat 16 (0xFF00 + c.toNat) := by
  rw [← highPageAddress_toNat, BitVec.ofNat_toNat, BitVec.setWidth_eq]

theorem region_highPageAddress_eq_io {c : Byte} (h : c.toNat ≤ 0x7F) : region (highPageAddress c) = .io := by
  rcases highPage_region c with ⟨hr, _⟩ | ⟨_, hc⟩
  · exact hr
  · omega

theorem region_highPageAddress_eq_unimplemented {c : Byte} (h : 0x80 ≤ c.toNat) :
    region (highPageAddress c) = .unimplemented := by
  rcases highPage_region c with ⟨_, hc⟩ | ⟨hr, _⟩
  · omega
  · exact hr

/-- Settles O36: the region of the address decides, and it goes by bit 7 of `C`. -/
theorem highPageStore : Obligations.HighPageStore := by
  refine fun s => ⟨fun hc => ?_, fun hc f hf => ?_, opcodeFetchFaults_of_ready⟩
  · have hexec := exec_ldHighCA_io (region_highPageAddress_eq_io hc)
    exact ⟨hexec, fun hr h0 => ifStep_of_op_next hr h0 firstByteRow_E2 hexec⟩
  · have hexec := exec_ldHighCA_unimplemented (region_highPageAddress_eq_unimplemented hc)
    rw [highPageAddress_eq_ofNat, ← hf] at hexec
    exact ⟨hexec, fun hr h0 => ifStep_of_op_fault hr h0 firstByteRow_E2 hexec⟩

end Sys2Proof.Machine
end

section
/-! PROOFS. The exclusive-or and the seven bit tests (spec/44_logic_and_bit.md): effect, step and fetch faults (R180 to R187),
and the invariant that `N` and `C` stay 0 (R188). -/

namespace Sys2Proof.Machine

variable {i : Instr} {s t : State}

/-! `N` and `C` stay 0. -/

/-- The invariant speaks of the flags alone. -/
theorem flagInv_of_flags_eq (hi : s.FlagInv) (h : t.flags = s.flags) : t.FlagInv := by
  rw [State.FlagInv, h]
  exact hi

/-- The exclusive-or clears both flags; a bit test clears `N` and keeps `C`; no other handler writes a flag. -/
theorem exec_next_flagInv (hi : s.FlagInv) (h : exec i s = .next t) : t.FlagInv := by
  cases exec_effect h with
  | exclusiveOr => exact ⟨rfl, rfl⟩
  | bitTest =>
    obtain ⟨_, hcarry⟩ := hi
    exact ⟨rfl, hcarry⟩
  | store hw => exact flagInv_of_flags_eq hi (by rw [writeU8_frame hw]; rfl)
  | registers | stackPointer => exact flagInv_of_flags_eq hi rfl

theorem step_next_flagInv (hi : s.FlagInv) (h : step s = .next t) : t.FlagInv := by
  obtain ⟨_, x, _, hx⟩ := step_next h
  exact exec_next_flagInv hi hx

theorem served_flagInv (hi : s.FlagInv) (h : Served s t) : t.FlagInv := by
  cases h with
  | unchanged => exact hi
  | reset h => exact ifReset_flagInv h
  | stepped h => exact step_next_flagInv hi h
  | latched => exact flagInv_of_flags_eq hi rfl
  | written h => exact flagInv_of_flags_eq hi (by rw [writeU8_frame h])

/-- Settles O43: the step by the effects of the handlers, the request by what it can do to the state. -/
theorem subtractAndCarryStayZero : Obligations.SubtractAndCarryStayZero :=
  ⟨fun _ _ => step_next_flagInv, fun q s hi => served_flagInv hi (serve_served q s)⟩

/-! The bit tests. -/

/-- The rule of `BIT 7,r` from the row of its extended opcode and the effect of its handler. -/
theorem tests7_of_row {byte1 : Byte} {reg : Regs → Byte} (hx : extendedInstr byte1 = some i)
    (hexec : ∀ s, exec i s = .next (afterBitTest (reg s.regs) s)) : tests7 byte1 i reg := by
  refine ⟨hexec, fun s hr => ⟨opcodeFetchFaults_of_ready hr, fun h0 => ⟨fun h1 => ?_, fun f h1 => ?_⟩⟩⟩
  · exact ifStep_of_row_next hr h0 firstByteRow_CB (fetchRow_cbXop_ok h1 hx) (hexec s)
  · exact ifStep_of_row_unreadable hr h0 firstByteRow_CB h1 (fetchRow_cbXop_error h1)

/-- Settles O38: the seven extended opcodes have their rows, and the seven handlers their closed forms. -/
theorem bitTests : Obligations.BitTests :=
  ⟨tests7_of_row extendedInstr_78 fun _ => exec_bit7B, tests7_of_row extendedInstr_79 fun _ => exec_bit7C,
    tests7_of_row extendedInstr_7A fun _ => exec_bit7D, tests7_of_row extendedInstr_7B fun _ => exec_bit7E,
    tests7_of_row extendedInstr_7C fun _ => exec_bit7H, tests7_of_row extendedInstr_7D fun _ => exec_bit7L,
    tests7_of_row extendedInstr_7F fun _ => exec_bit7A⟩

/-- Bit 7 of a byte is set from 0x80 on. -/
theorem getLsbD_seven_iff (v : Byte) : v.getLsbD 7 = true ↔ 0x80 ≤ v.toNat := by
  rw [← BitVec.msb_eq_getLsbD_last v, BitVec.msb_eq_decide, decide_eq_true_iff]

/-- Bit 7 of the high half decides whether a pair is 0x8000 or more. -/
theorem getLsbD_seven_iff_concat (high low : Byte) : high.getLsbD 7 = true ↔ 0x8000 ≤ (concat high low).toNat := by
  have hlow : low.toNat < 256 := low.isLt
  rw [getLsbD_seven_iff, concat_toNat]
  omega

/-- Settles O46: `Z` is bit 7 of `H` inverted, and `H` is the high half of `HL`. -/
theorem bitTestOfHComparesWithVramBase : Obligations.BitTestOfHComparesWithVramBase := by
  intro s t h
  have hz : t.flags.z = !s.regs.h.getLsbD 7 := exec_next_z_of_test h rfl rfl
  rw [hz, Bool.not_eq_false', Regs.hl]
  exact getLsbD_seven_iff_concat s.regs.h s.regs.l

/-! The exclusive-or. -/

/-- Settles O37: the handler's closed form, run as a one-byte instruction. -/
theorem exclusiveOrWithItself : Obligations.ExclusiveOrWithItself := by
  rintro s t rfl
  exact ⟨exec_xorA, fun hr h0 => ifStep_of_op_next hr h0 firstByteRow_AF exec_xorA⟩

end Sys2Proof.Machine
end

section
/-! PROOFS. The latch (spec/60_exceptions.md R205, R206, R209; decision D8): what a fault sets, what keeps it, and the detection
table of a step that is not `FAULTED` (R210). -/

namespace Sys2Proof.Machine

variable {i : Instr} {s t u : State} {f : Fault} {op : Byte} {row : Row}

/-! The machine in `FAULTED`. -/

theorem SameButMemory.trans (h : SameButMemory s t) (h' : SameButMemory t u) : SameButMemory s u :=
  calc u = { t with ram := u.ram, vram := u.vram } := h'
    _ = { s with ram := u.ram, vram := u.vram } := by rw [h]

/-- The machine in `FAULTED` serves the host's accesses, but a step of it changes nothing: short of a reset, a request reaches
the two arrays alone. -/
theorem serve_sameButMemory {q : HostRequest} (hr : s.faultRecord = some f) (hq : ∀ image, q ≠ .reset image) :
    SameButMemory s (serve q s).2 := by
  cases q with
  | reset image => exact absurd rfl (hq image)
  | step => simp only [serve, ifStep_of_record hr]; rfl
  | readU8 a => simp only [serve]; split <;> rfl
  | readU16 a => simp only [serve]; split <;> rfl
  | writeU8 a v =>
    cases hw : s.writeU8 a v with
    | ok t => simp only [serve, hw]; exact writeU8_frame hw
    | error g => simp only [serve, hw]; rfl
  | observe => rfl

theorem serveAll_sameButMemory {qs : List HostRequest} (hr : s.faultRecord = some f) (hqs : ∀ image, .reset image ∉ qs) :
    SameButMemory s (serveAll qs s) := by
  induction qs generalizing s with
  | nil => rfl
  | cons q qs ih =>
    have hfirst : SameButMemory s (serve q s).2 :=
      serve_sameButMemory hr fun image hq => hqs image (hq ▸ List.mem_cons_self)
    have hr' : (serve q s).2.faultRecord = some f := by rw [hfirst]; exact hr
    exact hfirst.trans (ih hr' fun image hmem => hqs image (List.mem_cons_of_mem q hmem))

/-- Settles O15, by induction on the requests: each keeps all but the arrays, so the next finds the machine in `FAULTED`. -/
theorem onlyResetLeavesFaulted : Obligations.OnlyResetLeavesFaulted := by
  intro qs s f hr hqs
  rw [serveAll_sameButMemory hr hqs]
  exact ⟨hr, rfl, rfl, rfl, rfl, step_of_record hr⟩

/-- A fault answered by a machine that was not `FAULTED` is latched, and nothing else changes. -/
theorem ifStep_fault (hr : s.faultRecord = none) (h : ifStep s = (.fault f, t)) : t = s.latchFault f := by
  obtain ⟨hnext, hfault, _⟩ := stepResponseAndStateAfter s
  cases hs : step s with
  | next t' =>
    obtain ⟨_, _, hok⟩ := hnext t' hs
    cases hok.symm.trans h
  | fault g => cases (hfault g hs hr).symm.trans h; rfl
  | refused r => exact absurd hs (noStepIsRefused s r)

/-- Settles O14: the state after the fault is the one before it with the latch set. -/
theorem faultingStepCommitsNothing : Obligations.FaultingStepCommitsNothing := by
  intro s t f hr h
  obtain rfl := ifStep_fault hr h
  exact ⟨rfl, rfl, rfl, rfl, fun a => readU8_congr rfl rfl a, rfl, step_of_record rfl, ifStep_of_record rfl⟩

theorem run_succ_of_record (hr : s.faultRecord = some f) (k : Nat) : core.run (k + 1) s = .fault f := by
  have hstep : core.step s = .fault f := step_of_record hr
  simp only [Host.Core.run, hstep]

/-- Settles O16: the first step of the run answers the record. -/
theorem faultedStateStartsNoSafeRun : Obligations.FaultedStateStartsNoSafeRun := by
  rintro s k hfaulted ⟨t, hrun⟩
  obtain ⟨f, hr⟩ := Option.isSome_iff_exists.1 hfaulted
  cases (run_succ_of_record hr k).symm.trans hrun

/-! The detection table. -/

/-- The outcome is the fault a check found, or a next state when no check found one. -/
def Answers (o : Host.Outcome State Fault Refusal) : Option Fault → Prop
  | some f => o = .fault f
  | none => ∃ t, o = .next t

theorem Answers.iff {o : Host.Outcome State Fault Refusal} {found : Option Fault} (h : Answers o found) :
    (∀ f, o = .fault f ↔ found = some f) ∧ ((∃ t, o = .next t) ↔ found = none) := by
  cases found with
  | some g => cases h; simp
  | none => obtain ⟨t, rfl⟩ := h; simp

/-- The last check of the table, on the address an instruction stores to. -/
def storeFault (i : Instr) (s : State) : Option Fault :=
  match storeAddress i s with
  | some a => if region a = .unimplemented then some (.unimplementedMemoryRegion a .write) else none
  | none => none

/-- A handler answers as that check says. -/
theorem exec_answers (i : Instr) (s : State) : Answers (exec i s) (storeFault i s) := by
  cases i with
  | ldHLDecA =>
    by_cases hregion : region s.regs.hl = .unimplemented
    · simp only [storeFault, storeAddress, if_pos hregion]
      exact exec_ldHLDecA_error (writeU8_of_unimplemented hregion)
    · obtain ⟨_, hw⟩ := writeU8_ok_iff.2 hregion
      simp only [storeFault, storeAddress, if_neg hregion]
      exact ⟨_, exec_ldHLDecA_ok hw⟩
  | ldHighCA =>
    rcases highPage_region s.regs.c with ⟨hio, _⟩ | ⟨hregion, _⟩
    · simp only [storeFault, storeAddress, hio]
      exact ⟨_, exec_ldHighCA_io hio⟩
    · simp only [storeFault, storeAddress, if_pos hregion]
      exact exec_ldHighCA_unimplemented hregion
  | ldB _ | ldC _ | ldD _ | ldE _ | ldH _ | ldL _ | ldA _ | ldBC _ | ldDE _ | ldHL _ | ldSP _ | jrNZ _ | xorA
  | bit7B | bit7C | bit7D | bit7E | bit7H | bit7L | bit7A => exact ⟨_, rfl⟩

/-- The faults a step looks for, in its own order: those of the fetch, then the store's. -/
def stepChecks (s : State) : Option Fault :=
  match fetch s with
  | .error f => some f
  | .ok x => storeFault x.instr s

theorem step_answers (hr : s.faultRecord = none) : Answers (step s) (stepChecks s) := by
  cases hf : fetch s with
  | error f =>
    simp only [stepChecks, hf]
    exact step_of_fetch_error hr hf
  | ok x =>
    simp only [stepChecks, hf, step_of_fetch hr hf]
    exact exec_answers x.instr s

/-- The first bytes after which the table checks one operand byte. -/
abbrev operand8Opcodes : List Byte := [0x06, 0x0E, 0x16, 0x1E, 0x26, 0x2E, 0x3E, 0x20]

/-- The first bytes after which the table checks two operand bytes. -/
abbrev operand16Opcodes : List Byte := [0x01, 0x11, 0x21, 0x31]

/-- The first bytes that are an instruction by themselves. -/
abbrev wholeOpcodes : List (Byte × Instr) := [(0x32, .ldHLDecA), (0xE2, .ldHighCA), (0xAF, .xorA)]

theorem operand8Opcodes_assigned : ∀ op ∈ operand8Opcodes, op ∈ assignedFirstBytes ∧ op ≠ 0xCB := by decide

theorem operand16Opcodes_assigned :
    ∀ op ∈ operand16Opcodes, op ∈ assignedFirstBytes ∧ op ≠ 0xCB ∧ op ∉ operand8Opcodes := by decide

/-- The table goes by the format of a first byte; only one-byte instructions store. -/
def CheckedByFormat (op : Byte) : Row → Prop
  | .op i => (op, i) ∈ wholeOpcodes
  | .opD8 make => op ∈ operand8Opcodes ∧ ∀ d8 s, storeFault (make d8) s = none
  | .opE8 make => op ∈ operand8Opcodes ∧ ∀ e8 s, storeFault (make e8) s = none
  | .opD16 make => op ∈ operand16Opcodes ∧ ∀ d16 s, storeFault (make d16) s = none
  | .cbXop => op = 0xCB

theorem firstByteTable_checkedByFormat : ∀ x ∈ firstByteTable, CheckedByFormat x.1 x.2 := by
  simp [firstByteTable, CheckedByFormat, storeFault, storeAddress]

theorem extendedTable_storeFault (s : State) : ∀ x ∈ extendedTable, storeFault x.2 s = none := by
  simp [extendedTable, storeFault, storeAddress]

section opcode

variable (h0 : s.readU8 s.pc = .ok op)
include h0

theorem stepChecks_of_row_ok {row : Option Row} (hrow : firstByteRow op = row) (hrest : fetchRow s s.pc op row = .ok i) :
    stepChecks s = storeFault i s := by
  simp only [stepChecks, fetch_of_row h0 hrow, hrest, Except.map]

theorem stepChecks_of_row_error {row : Option Row} (hrow : firstByteRow op = row)
    (hrest : fetchRow s s.pc op row = .error f) : stepChecks s = some f := by
  simp only [stepChecks, fetch_of_row h0 hrow, hrest, Except.map]

/-! The table finds what the step finds, format by format. -/

theorem firstFaultByTable_of_unassigned (hop : op ∉ assignedFirstBytes) : firstFaultByTable s = stepChecks s := by
  rw [stepChecks_of_row_error h0 (firstByteRow_eq_none.2 hop) rfl]
  simp only [firstFaultByTable, h0, if_pos hop]

theorem firstFaultByTable_of_op (hrow : firstByteRow op = some (.op i)) (hop : (op, i) ∈ wholeOpcodes) :
    firstFaultByTable s = stepChecks s := by
  rw [stepChecks_of_row_ok h0 hrow rfl]
  simp only [List.mem_cons, Prod.mk.injEq, List.not_mem_nil, or_false] at hop
  rcases hop with ⟨rfl, rfl⟩ | ⟨rfl, rfl⟩ | ⟨rfl, rfl⟩ <;> simp only [firstFaultByTable, h0] <;> rfl

/-- One operand byte, signed or not: what the fetch makes of it does not matter to the table. -/
theorem firstFaultByTable_of_operand8 {make : Byte → Instr} (hrow : firstByteRow op = some row)
    (hop : op ∈ operand8Opcodes) (hstore : ∀ v s, storeFault (make v) s = none)
    (hok : ∀ v, s.readU8 (s.pc + 1) = .ok v → fetchRow s s.pc op (some row) = .ok (make v))
    (herror : ∀ f, s.readU8 (s.pc + 1) = .error f → fetchRow s s.pc op (some row) = .error f) :
    firstFaultByTable s = stepChecks s := by
  obtain ⟨hassigned, hcb⟩ := operand8Opcodes_assigned op hop
  simp only [firstFaultByTable, h0, if_neg (not_not_intro hassigned), if_neg hcb, if_pos hop]
  cases h1 : s.readU8 (s.pc + 1) with
  | error f =>
    obtain ⟨rfl, _⟩ := readU8_error h1
    exact (stepChecks_of_row_error h0 hrow (herror _ h1)).symm
  | ok v => rw [stepChecks_of_row_ok h0 hrow (hok v h1), hstore]

/-- Two operand bytes, the high one checked first. -/
theorem firstFaultByTable_of_operand16 {make : Word → Instr} (hrow : firstByteRow op = some (.opD16 make))
    (hop : op ∈ operand16Opcodes) (hstore : ∀ v s, storeFault (make v) s = none) :
    firstFaultByTable s = stepChecks s := by
  obtain ⟨hassigned, hcb, h8⟩ := operand16Opcodes_assigned op hop
  simp only [firstFaultByTable, h0, if_neg (not_not_intro hassigned), if_neg hcb, if_neg h8, if_pos hop]
  cases hh : s.readU8 (s.pc + 2) with
  | error f =>
    obtain ⟨rfl, _⟩ := readU8_error hh
    exact (stepChecks_of_row_error h0 hrow (fetchRow_opD16_error_high hh)).symm
  | ok high =>
    cases hl : s.readU8 (s.pc + 1) with
    | error f =>
      obtain ⟨rfl, _⟩ := readU8_error hl
      exact (stepChecks_of_row_error h0 hrow (fetchRow_opD16_error_low hh hl)).symm
    | ok low => rw [stepChecks_of_row_ok h0 hrow (fetchRow_opD16_ok hl hh), hstore]

end opcode

theorem firstFaultByTable_of_prefix (h0 : s.readU8 s.pc = .ok 0xCB) : firstFaultByTable s = stepChecks s := by
  have hassigned : ¬ (0xCB : Byte) ∉ assignedFirstBytes := by decide
  simp only [firstFaultByTable, h0, if_neg hassigned, if_true]
  cases h1 : s.readU8 (s.pc + 1) with
  | error f =>
    obtain ⟨rfl, _⟩ := readU8_error h1
    exact (stepChecks_of_row_error h0 firstByteRow_CB (fetchRow_cbXop_error h1)).symm
  | ok xop =>
    cases hx : extendedInstr xop with
    | none =>
      rw [stepChecks_of_row_error h0 firstByteRow_CB (fetchRow_cbXop_unknown h1 hx)]
      exact if_pos (extendedInstr_eq_none.1 hx)
    | some i =>
      have hmem := extendedInstr_mem hx
      have hlisted : xop ∈ assignedExtendedBytes := List.mem_map_of_mem (f := Prod.fst) hmem
      rw [stepChecks_of_row_ok h0 firstByteRow_CB (fetchRow_cbXop_ok h1 hx), extendedTable_storeFault s _ hmem]
      exact if_neg (not_not_intro hlisted)

/-- The table of R210 finds what the step finds. -/
theorem firstFaultByTable_eq_stepChecks (s : State) : firstFaultByTable s = stepChecks s := by
  cases h0 : s.readU8 s.pc with
  | error f =>
    obtain ⟨rfl, _⟩ := readU8_error h0
    simp only [firstFaultByTable, h0, stepChecks, fetch_of_opcode_error h0]
  | ok op =>
    cases hrow : firstByteRow op with
    | none => exact firstFaultByTable_of_unassigned h0 (firstByteRow_eq_none.1 hrow)
    | some row =>
      have hformat := firstByteTable_checkedByFormat _ (firstByteRow_mem hrow)
      cases row with
      | op i => exact firstFaultByTable_of_op h0 hrow hformat
      | opD8 make =>
        obtain ⟨hop, hstore⟩ := hformat
        exact firstFaultByTable_of_operand8 h0 hrow hop hstore (fun _ => fetchRow_opD8_ok) fun _ => fetchRow_opD8_error
      | opE8 make =>
        obtain ⟨hop, hstore⟩ := hformat
        exact firstFaultByTable_of_operand8 h0 hrow hop hstore (fun _ => fetchRow_opE8_ok) fun _ => fetchRow_opE8_error
      | opD16 make =>
        obtain ⟨hop, hstore⟩ := hformat
        exact firstFaultByTable_of_operand16 h0 hrow hop hstore
      | cbXop =>
        rw [show op = 0xCB from hformat] at h0
        exact firstFaultByTable_of_prefix h0

/-- Settles O9: the table finds the faults the step looks for, in its order, and the step answers by what is found. -/
theorem stepFaultsByTheDetectionTable : Obligations.StepFaultsByTheDetectionTable := by
  intro s hr
  rw [firstFaultByTable_eq_stepChecks]
  exact (step_answers hr).iff

end Sys2Proof.Machine
end

section
/-! PROOFS. The reset: what it answers, the memory it leaves, and the first step after it (spec/70_reset_and_hazards.md
section 1, R230 to R232). -/

namespace Sys2Proof.Machine

variable {image : List Byte} {t : State}

theorem ifReset_of_fits (h : image.length ≤ Config.ramSize) :
    ifReset image = .next (State.reset.setRam (Memory.load 0 image)) :=
  if_pos (decide_eq_true h)

theorem ifReset_of_too_long (h : Config.ramSize < image.length) : ifReset image = .refused (.bootImageTooLong image.length) :=
  if_neg fun hfits => Nat.not_le_of_lt h (of_decide_eq_true hfits)

/-- The answer and the state after a reset do not depend on the state before it (R232). -/
theorem serve_reset_of_next (h : ifReset image = .next t) (s : State) : serve (.reset image) s = (.done, t) := by
  simp only [serve, h]

theorem readU8_of_ifReset_image (h : ifReset image = .next t) {i : Nat} (hi : i < image.length) :
    t.readU8 (BitVec.ofNat 16 i) = .ok image[i] := by
  obtain ⟨hfits, rfl⟩ := ifReset_next h
  have hread := Memory.read_load 0 i hi
  rw [Nat.zero_add] at hread
  rw [readU8_ofNat_ram _ (Nat.lt_of_lt_of_le hi hfits), State.setRam_ram, hread]

theorem readU8_of_ifReset_beyond_image (h : ifReset image = .next t) {i : Nat} (hi : image.length ≤ i)
    (hsize : i < Config.ramSize) : t.readU8 (BitVec.ofNat 16 i) = .ok 0 := by
  obtain ⟨_, rfl⟩ := ifReset_next h
  rw [readU8_ofNat_ram _ hsize, State.setRam_ram, Memory.read_load_outside 0 i (.inr (by omega)), Memory.unlisted]

theorem readU8_of_ifReset_vram (h : ifReset image = .next t) {i : Nat} (hsize : i < Config.vramSize) :
    t.readU8 (BitVec.ofNat 16 (0x8000 + i)) = .ok 0 := by
  obtain ⟨_, rfl⟩ := ifReset_next h
  rw [readU8_ofNat_vram _ hsize, State.setRam_vram]
  rfl

/-- Settles O26: a reset makes `State.reset` with the image in RAM, so the arrays alone need an argument. -/
theorem resetGivesEveryPieceOfState : Obligations.ResetGivesEveryPieceOfState := by
  refine ⟨fun image hfits => ?_, fun image hlong => ifReset_of_too_long hlong, rfl⟩
  have h := ifReset_of_fits hfits
  exact ⟨_, h, rfl, rfl, rfl, rfl, rfl, fun _ hi => readU8_of_ifReset_image h hi,
    fun _ hi hsize => readU8_of_ifReset_beyond_image h hi (Nat.lt_succ_of_le hsize),
    fun _ hsize => readU8_of_ifReset_vram h (Nat.lt_succ_of_le hsize), serve_reset_of_next h⟩

/-- Settles O27: the byte at address 0 is zero, and zero is no assigned first byte. -/
theorem emptyImageFaultsAtAddressZero : Obligations.EmptyImageFaultsAtAddressZero := by
  have hzero : State.reset.readU8 State.reset.pc = .ok 0 :=
    readU8_of_ifReset_beyond_image (image := []) rfl (Nat.zero_le 0) (by decide)
  exact step_of_unassigned rfl hzero (by decide)

end Sys2Proof.Machine
end
